-- ==== Sys2Proof/Word.lean ====
section
/-! DEFINITION. The one word type of the block: a slot holds one byte (R4). -/

namespace Sys2Proof

/-- What a slot, `push_data`, `pop_data` and `peek_data` hold: 8 bits, unsigned (R4, R9). -/
abbrev Byte := BitVec 8

end Sys2Proof
end

