-- ==== Sys2Proof/Config.lean ====
section
/-! DEFINITION. What is fixed at elaboration, what is drawn at power-up, and the one free value of the block.
`CAP` and `W` are computed from the configuration in Sys2Proof/Machine/Capacity.lean. -/

namespace Sys2Proof

/-- The elaboration-time parameter (R3). It never changes while the hardware exists (R3, R13). -/
structure Config where
  /-- `REQ_CAPACITY`: 0 asks for the default capacity. -/
  reqCapacity : Nat
deriving DecidableEq, Repr

/-- The configuration of `State.reset`: `REQ_CAPACITY = 0`, the source's default (DESIGN CHOICE, log 1). -/
def Config.default : Config := { reqCapacity := 0 }

/-- FREE VALUE, no law: the byte `draw(peek_oob_value)` of R67, at the n-th out-of-range peek (log 4). -/
opaque Config.peekOobValue : Nat → Byte

/-- The draws of the power-up state (R88): every element of R13, each an argument of the model.
A cursor draw is read modulo `CAP`, which reaches every cursor of [0, CAP) and no other (log 5). -/
structure PowerUp where
  storage  : Nat → Byte
  wrIdx    : Nat
  rdIdx    : Nat
  wrLap    : Bool
  rdLap    : Bool
  popData  : Byte
  peekData : Byte

end Sys2Proof
end

