-- ==== Sys2Proof/Machine/Capacity.lean ====
section
/-! DEFINITION. `CAP` and `W`, computed from the configuration (R3, R5). -/

namespace Sys2Proof

/-- `CAP` (R3): 128 when `REQ_CAPACITY = 0`, else `REQ_CAPACITY`. -/
def Config.cap (c : Config) : Nat :=
  if c.reqCapacity = 0 then 128 else c.reqCapacity

/-- `clog2(n)` (R5): the least `k` with `2^k >= n`. -/
def clog2 (n : Nat) : Nat :=
  if n ≤ 1 then 0 else Nat.log2 (n - 1) + 1

/-- `W = max(1, clog2(CAP))` (R5): the width of `peek_addr` and of each cursor's index. -/
def Config.width (c : Config) : Nat :=
  max 1 (clog2 c.cap)

end Sys2Proof
end

