-- ==== Sys2Proof/Syntax.lean ====
section
/-! DEFINITION. The commands (one constructor of `Instr` per row of spec/opcode_table.json), the effective-command
names, and the input pins of one cycle as the three agents drive them. -/

namespace Sys2Proof

/-- One effective command with the operands it uses (R45 to R48). A don't-care operand field is no part of it (R46). -/
inductive Instr where
  /-- RESET (R55). -/
  | reset
  /-- CLEAR (R56). -/
  | clear
  /-- NOP (R57). -/
  | nop
  /-- PUSH push_data (R61). -/
  | push (data : Byte)
  /-- POP (R63). -/
  | pop
  /-- PUSHPOP push_data (R65). -/
  | pushpop (data : Byte)
  /-- PEEK peek_addr, a raw slot index of `W` bits (R49, R66). -/
  | peek (addr : Nat)
  /-- PEEKPUSH peek_addr, push_data (R68). -/
  | peekpush (addr : Nat) (data : Byte)
deriving DecidableEq, Repr

/-- The name of an effective command, what R47's decode answers and a NO_RESET record holds (R74). -/
inductive Command where
  | reset | clear | nop | push | pop | pushpop | peek | peekpush
deriving DecidableEq, Repr

/-- What a pin may show when it is sampled: a known 0 or 1, X (unknown) or Z (undriven) (R52). -/
inductive Level where
  | low | high | unknown | undriven
deriving DecidableEq, Repr

/-- The input ports of the block but the clock (R44). -/
inductive Pin where
  | rst | clr | push | pushData | pop | peek | peekAddr
deriving DecidableEq, Repr

/-- The pins the controller drives (R82). -/
structure ControllerPins where
  rst : Level
  clr : Level
deriving DecidableEq, Repr

/-- The pins the producer drives (R82). A bus lists its levels from bit 0 up. -/
structure ProducerPins where
  push     : Level
  pushData : List Level
deriving DecidableEq, Repr

/-- The pins the consumer drives (R82). -/
structure ConsumerPins where
  pop      : Level
  peek     : Level
  peekAddr : List Level
deriving DecidableEq, Repr

/-- What the three agents present for one edge: every input of R44, each with its one driver (R82). -/
structure Sample where
  controller : ControllerPins
  producer   : ProducerPins
  consumer   : ConsumerPins
deriving DecidableEq, Repr

end Sys2Proof
end

