-- ==== Sys2Proof/WellFormed.lean ====
section
/-! DEFINITION. Which commands can stand on the pins of a block of a given configuration. -/

namespace Sys2Proof

/-- A raw slot index fits the `W`-bit port (R49). Indices in [CAP, 2^W) are well formed: they exist on the port. -/
def indexFits (c : Config) (addr : Nat) : Bool :=
  decide (addr < 2 ^ c.width)

/-- A command whose operands the pins can carry (R45, R49). -/
def Instr.wellFormed (c : Config) : Instr → Bool
  | .reset           => true
  | .clear           => true
  | .nop             => true
  | .push _          => true
  | .pop             => true
  | .pushpop _       => true
  | .peek addr       => indexFits c addr
  | .peekpush addr _ => indexFits c addr

end Sys2Proof
end

