-- ==== Sys2Proof/Decode.lean ====
section
/-! DEFINITION. Decoding the pins of one cycle (R44 to R52), the command word of R50, and the encoder.
Every known sample decodes (R51); what is rejected, by name, is a sample that is none of this block's. -/

namespace Sys2Proof

/-! ## Pins and buses -/

/-- The bit a pin carries, if it is known (R52). -/
def Level.bit? : Level → Option Bool
  | .low      => some false
  | .high     => some true
  | .unknown  => none
  | .undriven => none

/-- The level that drives a bit. -/
def Level.ofBit (b : Bool) : Level := if b then .high else .low

/-- The unsigned value of a bus listed from bit 0 up, if every pin of it is known (R9, R52). -/
def busValue : List Level → Option Nat
  | []      => some 0
  | l :: ls =>
    match l.bit?, busValue ls with
    | some b, some n => some (b.toNat + 2 * n)
    | _, _           => none

/-- The levels that drive the low `width` bits of a value onto a bus, bit 0 first. -/
def busLevels : Nat → Nat → List Level
  | 0, _         => []
  | width + 1, n => Level.ofBit (n % 2 = 1) :: busLevels width (n / 2)

/-! ## The control field -/

/-- `{rst, clr, peek, pop, push}` (R45). -/
def ctrlField (rst clr peek pop push : Bool) : BitVec 5 :=
  BitVec.ofBool rst ++ BitVec.ofBool clr ++ BitVec.ofBool peek ++ BitVec.ofBool pop ++ BitVec.ofBool push

/-- R47, in its own order: rst wins over everything, clr over push, pop and peek, and a peek is dropped when pop is requested. -/
def decodeCtrl (ctrl : BitVec 5) : Command :=
  if ctrl.getLsbD 4 then .reset
  else if ctrl.getLsbD 3 then .clear
  else
    let p := ctrl.getLsbD 0
    let q := ctrl.getLsbD 1
    let k := ctrl.getLsbD 2 && !ctrl.getLsbD 1
    match k, q, p with
    | false, false, false => .nop
    | false, false, true  => .push
    | false, true,  false => .pop
    | false, true,  true  => .pushpop
    | true,  _,     false => .peek
    | true,  _,     true  => .peekpush

/-- One row of the command table of R48. -/
structure TableRow where
  command : Command
  pattern : BitVec 5
  mask    : BitVec 5
deriving DecidableEq, Repr

/-- The command table of R48 (spec/opcode_table.json), row by row. -/
def commandTable : List TableRow :=
  [ ⟨.reset,    0b10000#5, 0b10000#5⟩,
    ⟨.clear,    0b01000#5, 0b11000#5⟩,
    ⟨.nop,      0b00000#5, 0b11111#5⟩,
    ⟨.push,     0b00001#5, 0b11111#5⟩,
    ⟨.pop,      0b00010#5, 0b11011#5⟩,
    ⟨.pushpop,  0b00011#5, 0b11011#5⟩,
    ⟨.peek,     0b00100#5, 0b11111#5⟩,
    ⟨.peekpush, 0b00101#5, 0b11111#5⟩ ]

/-- A row matches a control field: the bits under its mask are its pattern (R48). -/
def TableRow.matches (r : TableRow) (ctrl : BitVec 5) : Bool :=
  ctrl &&& r.mask == r.pattern

/-! ## Decoding a sample -/

/-- Why a sample is rejected. -/
inductive DecodeError where
  /-- A used input is X or Z (R52): R52 has the model refuse it. Safe (log 3). -/
  | unknownInput (pin : Pin)
  /-- `push_data` is not 8 pins, or `peek_addr` not `W` pins: no sample of this block (R44). Safe. -/
  | busWidth (pin : Pin)
  /-- A number of more than 13 + W bits is no command word (R50). Safe. -/
  | wordTooWide
deriving DecidableEq, Repr

/-- The bit of a request pin; its name when the pin is used and shows X or Z (R52). An unknown pin that is not used reads
as 0, a bit `decodeCtrl` does not look at then (R48; log 3). -/
def Level.sampleIf (used : Bool) (l : Level) (pin : Pin) : Except DecodeError Bool :=
  match l.bit? with
  | some b => .ok b
  | none   => if used then .error (.unknownInput pin) else .ok false

/-- The value of a bus, or its name when one of its pins is X or Z (R52). -/
def sampleBus (ls : List Level) (pin : Pin) : Except DecodeError Nat :=
  match busValue ls with
  | some n => .ok n
  | none   => .error (.unknownInput pin)

/-- `CTRL[4:0] = {rst, clr, peek, pop, push}` as sampled (R45). Which pins are used is R48's table: with `rst = 1` every
other request is don't-care (R55), with `clr = 1` so are push, pop and peek (R56), and with `pop = 1` so is peek (R63, R65,
R69). A used pin must be known (R52; log 3). -/
def Sample.ctrl (x : Sample) : Except DecodeError (BitVec 5) := do
  let rst  ← x.controller.rst.sampleIf true .rst
  let clr  ← x.controller.clr.sampleIf (!rst) .clr
  let pop  ← x.consumer.pop.sampleIf (!rst && !clr) .pop
  let push ← x.producer.push.sampleIf (!rst && !clr) .push
  let peek ← x.consumer.peek.sampleIf (!rst && !clr && !pop) .peek
  pure (ctrlField rst clr peek pop push)

/-- `push_data` as sampled: used unmodified (R46). -/
def Sample.pushByte (x : Sample) : Except DecodeError Byte := do
  let n ← sampleBus x.producer.pushData .pushData
  pure (BitVec.ofNat 8 n)

/-- `peek_addr` as sampled: a raw index, zero-extended (R46, R49). -/
def Sample.peekIndex (x : Sample) : Except DecodeError Nat :=
  sampleBus x.consumer.peekAddr .peekAddr

/-- The two buses have the widths of R44: 8 and `W`. -/
def Sample.checkWidths (c : Config) (x : Sample) : Except DecodeError Unit :=
  if x.producer.pushData.length ≠ 8 then .error (.busWidth .pushData)
  else if x.consumer.peekAddr.length ≠ c.width then .error (.busWidth .peekAddr)
  else .ok ()

/-- The operands a command uses are read from the pins, and no other (R46). -/
def Command.withOperands (k : Command) (x : Sample) : Except DecodeError Instr :=
  match k with
  | .reset    => .ok .reset
  | .clear    => .ok .clear
  | .nop      => .ok .nop
  | .push     => do let d ← x.pushByte; pure (.push d)
  | .pop      => .ok .pop
  | .pushpop  => do let d ← x.pushByte; pure (.pushpop d)
  | .peek     => do let a ← x.peekIndex; pure (.peek a)
  | .peekpush => do let a ← x.peekIndex; let d ← x.pushByte; pure (.peekpush a d)

/-- The effective command a sample presents (R47, R52). -/
def decode (c : Config) (x : Sample) : Except DecodeError Instr := do
  x.checkWidths c
  let ctrl ← x.ctrl
  (decodeCtrl ctrl).withOperands x

/-! ## The command word -/

/-- `13 + W`, the width of the command word (R50). -/
def Config.wordWidth (c : Config) : Nat := 13 + c.width

/-- The pins that the command word `{CTRL[4:0], push_data[7:0], peek_addr[W-1:0]}` stands for (R50). -/
def Sample.ofWord (c : Config) (word : Nat) : Sample :=
  let bit (k : Nat) : Level := Level.ofBit (word.testBit (c.width + 8 + k))
  { controller := { rst := bit 4, clr := bit 3 }
    producer   := { push := bit 0, pushData := busLevels 8 (word / 2 ^ c.width) }
    consumer   := { pop := bit 1, peek := bit 2, peekAddr := busLevels c.width word } }

/-- The command a command word stands for (R50); a number that does not fit the word is none. -/
def decodeWord (c : Config) (word : Nat) : Except DecodeError Instr :=
  if word < 2 ^ c.wordWidth then decode c (Sample.ofWord c word) else .error .wordTooWide

/-- `{ctrl, data, addr}` as one command word (R50). -/
def commandWord (c : Config) (ctrl : BitVec 5) (data : Byte) (addr : Nat) : Nat :=
  (ctrl.toNat * 2 ^ 8 + data.toNat) * 2 ^ c.width + addr

/-! ## The encoder -/

/-- The effective command of an instruction. -/
def Instr.command : Instr → Command
  | .reset        => .reset
  | .clear        => .clear
  | .nop          => .nop
  | .push _       => .push
  | .pop          => .pop
  | .pushpop _    => .pushpop
  | .peek _       => .peek
  | .peekpush _ _ => .peekpush

/-- The control field that requests a command and nothing else: R48's patterns, don't-care bits 0. -/
def encodeCtrl : Command → BitVec 5
  | .reset    => 0b10000#5
  | .clear    => 0b01000#5
  | .nop      => 0b00000#5
  | .push     => 0b00001#5
  | .pop      => 0b00010#5
  | .pushpop  => 0b00011#5
  | .peek     => 0b00100#5
  | .peekpush => 0b00101#5

/-- `push_data` of an instruction; 0 where it is don't-care (R50). -/
def Instr.dataField : Instr → Byte
  | .push d       => d
  | .pushpop d    => d
  | .peekpush _ d => d
  | .reset        => 0
  | .clear        => 0
  | .nop          => 0
  | .pop          => 0
  | .peek _       => 0

/-- `peek_addr` of an instruction; 0 where it is don't-care (R50). -/
def Instr.addrField : Instr → Nat
  | .peek a       => a
  | .peekpush a _ => a
  | .reset        => 0
  | .clear        => 0
  | .nop          => 0
  | .push _       => 0
  | .pop          => 0
  | .pushpop _    => 0

/-- The command word of an instruction (R50). -/
def encode (c : Config) (i : Instr) : Nat :=
  commandWord c (encodeCtrl i.command) i.dataField i.addrField

/-- The pins that present an instruction. -/
def Sample.ofInstr (c : Config) (i : Instr) : Sample :=
  Sample.ofWord c (encode c i)

/-! ## The opcode table's own numbering -/

/-- The pins for `nbits` bits `w` numbered as spec/opcode_table.json numbers a row: bits 4 to 0 are CTRL[4:0], the
table gives the operands no bits (they are 0), and a bit above CTRL names no pin (log 10). -/
def Sample.ofTableWord (c : Config) (nbits w : Nat) : Sample :=
  Sample.ofWord c (commandWord c (BitVec.ofNat 5 (w % 2 ^ nbits)) 0 0)

/-- What the decoder reads from a row's bits, on the block of the default configuration (log 10). -/
def decodeTableWord (nbits w : Nat) : Option Instr :=
  match decode Config.default (Sample.ofTableWord Config.default nbits w) with
  | .ok i    => some i
  | .error _ => none

end Sys2Proof
end

