-- ==== Sys2Proof/Machine/State.lean ====
section
/-! DEFINITION. The state of the block (R13), the violation log the spec keeps beside it (R75), and the state right
after reset (R55; 10_state.md section 8). -/

namespace Sys2Proof.Machine

/-- The storage array as (slot, byte) cells in canonical form: slots strictly rising, no byte 0x00 listed.
An unlisted slot reads 0x00, which is what RESET and CLEAR leave in every slot (R55, R56). -/
abbrev Memory := List Host.Cell

/-- A cursor: its index, in [0, CAP), and its lap bit (R14, R15). The index is a bounded count, so a `Nat` (log 12). -/
structure Cursor where
  idx : Nat
  lap : Bool
deriving DecidableEq, Repr

/-- A use of the block that the source leaves unchecked, with the information R74 records. -/
inductive Violation where
  /-- Code 1: a push without a pop while `full = 1`; the slot and the byte overwritten. -/
  | overflow (slot : Nat) (lost : Byte)
  /-- Code 2: a pop while `occ = 0`; the slot read. -/
  | underflow (slot : Nat)
  /-- Code 3: an effective peek with `peek_addr >= CAP`; the index. -/
  | peekRange (addr : Nat)
  /-- Code 4: an edge before the first RESET whose command is not RESET; the command. -/
  | noReset (cmd : Command)
deriving DecidableEq, Repr

/-- A record of the violation log: the edge number, and the violation with its code and info (R75). -/
structure Record where
  edge      : Nat
  violation : Violation
deriving DecidableEq, Repr

/-- Everything that survives from one cycle to the next: the seven elements of R13, the configuration beside them, the
spec's bookkeeping, and the two fields that are the model's own. -/
structure State where
  /-- `REQ_CAPACITY` (R3): configuration, written by no step. -/
  config     : Config
  /-- `storage[0..CAP-1]` (R19). -/
  storage    : Memory
  /-- `wr_idx` and `wr_lap` (R14, R15). -/
  wr         : Cursor
  /-- `rd_idx` and `rd_lap` (R14, R15). -/
  rd         : Cursor
  /-- `pop_data` (R20). -/
  popData    : Byte
  /-- `peek_data` (R20). -/
  peekData   : Byte
  /-- A RESET edge has happened: the power-up period is over (R88, R90). -/
  resetSeen  : Bool
  /-- The number of the latest edge; the first after power-up is 1 (R75; log 7). -/
  edge       : Nat
  /-- The violation log, oldest record first (R75). -/
  violations : List Record
  /-- The model's own: how many free bytes have been drawn (R67; log 4). -/
  draws      : Nat
  /-- The model's own: what the agents present at the coming edges, next edge first (log 2). -/
  inputs     : List Sample
deriving DecidableEq, Repr

/-- Why the machine stops. The hardware never does (R71). -/
inductive Fault where
  /-- A command reached a slot outside [0, CAP), which R10 forbids and no array holds (R28). Raised by the shared check
  `State.accessing`, only when a cursor is out of range, and no state of the hardware has such a cursor (R18).
  Safe (log 8). -/
  | noSuchSlot (index : Nat)
deriving DecidableEq, Repr

/-- Why there is no next state to give. -/
inductive Refusal where
  /-- No meaning has been written for an instruction. Raised by no arm: every command has its meaning. Safe. -/
  | notModelled (mnemonic : String)
  /-- The next sample is none the spec gives a behaviour for: a used input is X or Z (R52), or a bus has another width
  than R44 gives it. Raised by the fetch. Safe (log 3). -/
  | badSample (why : DecodeError)
  /-- No agent presents anything for the next edge. Raised by the fetch. Safe (log 2). -/
  | noSample
deriving DecidableEq, Repr

/-- The state after a RESET of a block built with configuration `c` (R55; 10_state.md section 8): the hardware elements
as the spec gives them. The RESET was edge 1 and nothing has been recorded (log 7). -/
def State.resetWith (c : Config) : State :=
  { config     := c
    storage    := []
    wr         := { idx := 0, lap := false }
    rd         := { idx := 0, lap := false }
    popData    := 0x00#8
    peekData   := 0x00#8
    resetSeen  := true
    edge       := 1
    violations := []
    draws      := 0
    inputs     := [] }

/-- The machine right after reset, with the source's default capacity (log 1). -/
def State.reset : State := State.resetWith Config.default

end Sys2Proof.Machine
end

