-- ==== Sys2Proof/Machine/Operands.lean ====
section
/-! DEFINITION. The ways a command names a slot (write cursor, read cursor, raw index) and the cursor arithmetic
(R14 to R17, R49, R59). -/

namespace Sys2Proof.Machine

/-- `CAP` of this block (R3). -/
def State.cap (s : State) : Nat := s.config.cap

/-- `inc(i)` (R10): by comparison with `CAP - 1`, never by masking (R6). -/
def inc (cap i : Nat) : Nat := if i = cap - 1 then 0 else i + 1

/-- `adv` (R59): the index advances with wraparound, and the lap bit toggles exactly on the wrap. -/
def Cursor.adv (cap : Nat) (c : Cursor) : Cursor :=
  if c.idx = cap - 1 then { idx := 0, lap := !c.lap } else { idx := c.idx + 1, lap := c.lap }

/-- `lap * CAP + idx`, the extended pointer of a cursor (R16). -/
def Cursor.ext (cap : Nat) (c : Cursor) : Nat := c.lap.toNat * cap + c.idx

/-- The cursor of slot 0 on lap 0, where CLEAR and RESET put both cursors (R55, R56). -/
def Cursor.start : Cursor := { idx := 0, lap := false }

/-- The slot a push writes: `wr_idx` (R28, R29). -/
def State.pushSlot (s : State) : Nat := s.wr.idx

/-- The slot a pop reads: `rd_idx` (R28, R30). -/
def State.popSlot (s : State) : Nat := s.rd.idx

/-- A raw peek index names a slot (R49). -/
def State.peekInRange (s : State) (addr : Nat) : Bool := decide (addr < s.cap)

end Sys2Proof.Machine
end

