-- ==== Sys2Proof/Machine/Flags.lean ====
section
/-! DEFINITION. What is computed from the state: the flags and outputs (R21 to R23), the extended pointers and the
occupancy (R16, R17), what each agent reads (R82), and the codes of the violations (R74). -/

namespace Sys2Proof.Machine

/-- `empty` (R21): the source's IsEmpty; the lap bits do not enter it. -/
def State.empty (s : State) : Bool := s.wr.idx == s.rd.idx

/-- `full` (R22). -/
def State.full (s : State) : Bool := s.wr.idx == s.rd.idx && s.wr.lap != s.rd.lap

/-- `wr_ext` (R16). -/
def State.wrExt (s : State) : Nat := s.wr.ext s.cap

/-- `rd_ext` (R16). -/
def State.rdExt (s : State) : Nat := s.rd.ext s.cap

/-- `occ = (wr_ext - rd_ext) mod (2*CAP)` (R17), the subtraction made after one whole turn is added. -/
def State.occ (s : State) : Nat := (s.wrExt + (2 * s.cap - s.rdExt)) % (2 * s.cap)

/-- The block's outputs, exactly four (R23). -/
structure Outputs where
  empty    : Bool
  full     : Bool
  popData  : Byte
  peekData : Byte
deriving DecidableEq, Repr

/-- The outputs are functions of the state alone (R11, R23). -/
def State.outputs (s : State) : Outputs :=
  { empty := s.empty, full := s.full, popData := s.popData, peekData := s.peekData }

/-- What the producer reads (R82). -/
structure ProducerView where
  full  : Bool
  empty : Bool
deriving DecidableEq, Repr

def State.producerView (s : State) : ProducerView := { full := s.full, empty := s.empty }

/-- The consumer reads all four outputs (R82). -/
def State.consumerView (s : State) : Outputs := s.outputs

/-- The controller may read any output (R82). -/
def State.controllerView (s : State) : Outputs := s.outputs

/-- The code of a violation (R74). -/
def Violation.code : Violation → Nat
  | .overflow _ _ => 1
  | .underflow _  => 2
  | .peekRange _  => 3
  | .noReset _    => 4

end Sys2Proof.Machine
end

