-- ==== Sys2Proof/Machine/Ops.lean ====
section
/-! DEFINITION. The named operations every command is built from: the array's read, write and clear (R10, R29 to R32),
the record of violations (R72 to R76, which take the place of an exception entry: R77 says there is none), and what
one push, pop and peek do to the state (R61, R63, R66, R67). Also the fetch: the sample of the next edge, decoded. -/

namespace Sys2Proof.Machine

/-! ## The storage array -/

/-- What a slot that is not listed holds (R55, R56; log 6). -/
def Memory.fill : Byte := 0x00#8

/-- `MemRead(a, 1)` (R10): the byte of slot `a`. -/
def Memory.read : Memory → Nat → Byte
  | [], _            => Memory.fill
  | (a', b) :: m, a  => if a = a' then b else Memory.read m a

/-- A cell in front of a memory, left out when it holds what an unlisted slot reads as. -/
def Memory.cell (a : Nat) (b : Byte) (m : Memory) : Memory :=
  if b = Memory.fill then m else (a, b) :: m

/-- `MemWrite(a, 1, v)` (R10): slot `a` holds `v`, every other slot as before; the canonical form is kept. -/
def Memory.write : Memory → Nat → Byte → Memory
  | [], a, v => Memory.cell a v []
  | (a', b) :: m, a, v =>
    if a < a' then Memory.cell a v ((a', b) :: m)
    else if a = a' then Memory.cell a v m
    else (a', b) :: Memory.write m a v

/-- `MemClearAll()` (R10, R32): every slot holds 0x00. -/
def Memory.clearAll : Memory := []

/-- The canonical form of an array of `cap` slots: slots strictly rising, every one a slot of the array, no fill byte
listed. -/
abbrev Memory.wf (cap : Nat) (m : Memory) : Prop :=
  m.Pairwise (fun c d => c.1 < d.1) ∧ ∀ c ∈ m, c.1 < cap ∧ c.2 ≠ Memory.fill

/-! ## Violations -/

/-- What a command of this edge records: what it raises, in code order; before the first RESET, NO_RESET and nothing
else (R74, R76). -/
def State.raised (s : State) (k : Command) (vs : List Violation) : List Record :=
  (if s.resetSeen then vs else [.noReset k]).map (Record.mk s.edge)

/-- `raise Violation(code, info)` (R10, R75): records are appended to the log, and nothing else changes (R72). -/
def State.record (s : State) (k : Command) (vs : List Violation) : State :=
  { s with violations := s.violations ++ s.raised k vs }

/-- OVERFLOW of a push without a pop: when `full = 1`, with the slot and the byte overwritten (R61, R74). -/
def State.overflows (s : State) : List Violation :=
  if s.full then [.overflow s.pushSlot (Memory.read s.storage s.pushSlot)] else []

/-- UNDERFLOW of a pop: when `empty = 1 and full = 0`, with the slot read (R63, R74). -/
def State.underflows (s : State) : List Violation :=
  if s.empty && !s.full then [.underflow s.popSlot] else []

/-- PEEK_RANGE of a peek: when the index names no slot (R67, R74). -/
def State.peekRanges (s : State) (addr : Nat) : List Violation :=
  if s.peekInRange addr then [] else [.peekRange addr]

/-! ## What the commands do to the state -/

/-- A push: the slot of the write cursor is written, then the cursor advances (R61). -/
def State.pushByte (s : State) (d : Byte) : State :=
  { s with storage := Memory.write s.storage s.pushSlot d, wr := s.wr.adv s.cap }

/-- A pop: the byte at the read cursor goes to `pop_data`, and the cursor advances; the slot is not erased (R63, R27). -/
def State.popByte (s : State) : State :=
  { s with popData := Memory.read s.storage s.popSlot, rd := s.rd.adv s.cap }

/-- A peek: the byte of a slot goes to `peek_data` (R66); an index that names no slot gives a free byte (R67). -/
def State.peekByte (s : State) (addr : Nat) : State :=
  if s.peekInRange addr then { s with peekData := Memory.read s.storage addr }
  else { s with peekData := Config.peekOobValue s.draws, draws := s.draws + 1 }

/-- What RESET and CLEAR share: the array cleared, both cursors and lap bits at their start (R55, R56, R90). -/
def State.zeroQueue (s : State) : State :=
  { s with storage := Memory.clearAll, wr := Cursor.start, rd := Cursor.start }

/-- A command that reaches the given slots answers `after`, unless one of them is no slot of the array (R10, R28; log 8). -/
def State.accessing (s : State) (slots : List Nat) (after : State) : Host.Outcome State Fault Refusal :=
  match slots.find? (fun a => decide (s.cap ≤ a)) with
  | some a => .fault (.noSuchSlot a)
  | none   => .next after

/-! ## The edge -/

/-- The sample of the next edge is taken and decoded, and the edge is counted (R10, R45, R52). -/
def State.fetch (s : State) : Except Refusal (Instr × State) :=
  match s.inputs with
  | []        => .error .noSample
  | x :: rest =>
    match decode s.config x with
    | .ok i    => .ok (i, { s with inputs := rest, edge := s.edge + 1 })
    | .error e => .error (.badSample e)

/-- A sample put in the place of what the agents would present at the next edge. -/
def State.withNextSample (s : State) (x : Sample) : State :=
  { s with inputs := x :: s.inputs.drop 1 }

/-- The commands the agents present at the coming edges, one an edge (R24). -/
def State.presenting (s : State) (is : List Instr) : State :=
  { s with inputs := is.map (Sample.ofInstr s.config) }

end Sys2Proof.Machine
end

