-- ==== Sys2Proof/Machine/Control.lean ====
section
/-! DEFINITION. RESET, CLEAR and NOP (40_control.md). -/

namespace Sys2Proof.Machine

/-- RESET (R55): everything zero; raises nothing, keeps the violation log, and ends the power-up period (R90). -/
def execReset (s : State) : Host.Outcome State Fault Refusal :=
  .next { s.zeroQueue with popData := 0x00#8, peekData := 0x00#8, resetSeen := true }

/-- CLEAR (R56): the array and the cursors zero, the output registers kept. -/
def execClear (s : State) : Host.Outcome State Fault Refusal :=
  .next (s.record .clear []).zeroQueue

/-- NOP (R57): no state element is written. -/
def execNop (s : State) : Host.Outcome State Fault Refusal :=
  .next (s.record .nop [])

end Sys2Proof.Machine
end

