-- ==== Sys2Proof/Machine/Peek.lean ====
section
/-! DEFINITION. PEEK and PEEKPUSH (42_peek.md). -/

namespace Sys2Proof.Machine

/-- PEEK (R66, R67): writes `peek_data` and nothing else. -/
def execPeek (addr : Nat) (s : State) : Host.Outcome State Fault Refusal :=
  .next ((s.record .peek (s.peekRanges addr)).peekByte addr)

/-- PEEKPUSH (R68): the peek reads the array as it was, then the push writes; OVERFLOW before PEEK_RANGE (R76). -/
def execPeekpush (addr : Nat) (d : Byte) (s : State) : Host.Outcome State Fault Refusal :=
  s.accessing [s.pushSlot]
    (((s.record .peekpush (s.overflows ++ s.peekRanges addr)).peekByte addr).pushByte d)

end Sys2Proof.Machine
end

