-- ==== Sys2Proof/Machine/Queue.lean ====
section
/-! DEFINITION. PUSH, POP and PUSHPOP (41_queue.md). -/

namespace Sys2Proof.Machine

/-- PUSH (R61): always writes and advances; at `full = 1` it overwrites the oldest byte and OVERFLOW is recorded (R62). -/
def execPush (d : Byte) (s : State) : Host.Outcome State Fault Refusal :=
  s.accessing [s.pushSlot] ((s.record .push s.overflows).pushByte d)

/-- POP (R63): always reads and advances; at occupancy 0 UNDERFLOW is recorded (R64). -/
def execPop (s : State) : Host.Outcome State Fault Refusal :=
  s.accessing [s.popSlot] (s.record .pop s.underflows).popByte

/-- PUSHPOP (R65): the pop reads the array as it was, then the push writes; never OVERFLOW. -/
def execPushpop (d : Byte) (s : State) : Host.Outcome State Fault Refusal :=
  s.accessing [s.popSlot, s.pushSlot] ((s.record .pushpop s.underflows).popByte.pushByte d)

end Sys2Proof.Machine
end

