-- ==== Sys2Proof/Machine/Dispatch.lean ====
section
/-! DEFINITION. Which meaning each effective command has: one arm per constructor of `Instr`. -/

namespace Sys2Proof.Machine

def exec (i : Instr) (s : State) : Host.Outcome State Fault Refusal :=
  match i with
  | .reset => Sys2Proof.Machine.execReset s
  | .clear => Sys2Proof.Machine.execClear s
  | .nop => Sys2Proof.Machine.execNop s
  | .push d => Sys2Proof.Machine.execPush d s
  | .pop => Sys2Proof.Machine.execPop s
  | .pushpop d => Sys2Proof.Machine.execPushpop d s
  | .peek a => Sys2Proof.Machine.execPeek a s
  | .peekpush a d => Sys2Proof.Machine.execPeekpush a d s

end Sys2Proof.Machine
end

