-- ==== Sys2Proof/Machine/Step.lean ====
section
/-! DEFINITION. One rising edge of `clk` (R10, R11): the inputs presented are sampled and decoded, and the effective
command takes effect. -/

namespace Sys2Proof.Machine

def step (s : State) : Host.Outcome State Fault Refusal :=
  match s.fetch with
  | .ok (i, s') => exec i s'
  | .error r    => .refused r

/-- `s` with a row's bits presented at the next edge, in place of what the agents would present then (log 2, log 10). -/
def State.withFetchWord (s : State) (nbits w : Nat) : State :=
  s.withNextSample (Sample.ofTableWord s.config nbits w)

end Sys2Proof.Machine
end

