-- ==== Sys2Proof/Machine/Construct.lean ====
section
/-! DEFINITION. Elaboration, power-up and boot (R3, R7, R58, R88, R89). -/

namespace Sys2Proof.Machine

/-- Why no hardware exists for a requested capacity (R7). Safe: the model has no run for it. -/
inductive ElaborationRefusal where
  | unbuildable (cap : Nat)
deriving DecidableEq, Repr

/-- Elaboration with a requested capacity (R3, R7). Which capacities the target can build is an argument (log 11). -/
def elaborate (buildable : Nat → Bool) (req : Nat) : Except ElaborationRefusal Config :=
  let c : Config := { reqCapacity := req }
  if buildable c.cap then .ok c else .error (.unbuildable c.cap)

/-- The array whose slot `i` holds `f i`, for every slot below `cap`. -/
def Memory.ofSlots (cap : Nat) (f : Nat → Byte) : Memory :=
  (List.range cap).foldr (fun i m => Memory.cell i (f i) m) []

/-- The state at power-up, every element of R13 as drawn (R88). No edge has happened and the log is empty (R75). -/
def State.powerUp (c : Config) (d : PowerUp) : State :=
  { config     := c
    storage    := Memory.ofSlots c.cap d.storage
    wr         := { idx := d.wrIdx % c.cap, lap := d.wrLap }
    rd         := { idx := d.rdIdx % c.cap, lap := d.rdLap }
    popData    := d.popData
    peekData   := d.peekData
    resetSeen  := false
    edge       := 0
    violations := []
    draws      := 0
    inputs     := [] }

/-- Construct(requested_capacity) (R58): elaboration, then one RESET edge from power-up. -/
def construct (buildable : Nat → Bool) (d : PowerUp) (req : Nat) :
    Except ElaborationRefusal (Host.Outcome State Fault Refusal) := do
  let c ← elaborate buildable req
  pure (step ((State.powerUp c d).presenting [.reset]))

end Sys2Proof.Machine
end

