-- ==== Sys2Proof/Machine/Listing.lean ====
section
/-! DEFINITION. The listing language (R53) and the pseudo-commands (R54): one line per clock cycle, read from characters,
assembled into commands. Text is a list of characters. Points R53 leaves open: log 14. -/

namespace Sys2Proof.Machine

/-! ## Lines and their expansion -/

/-- The pseudo-commands of R54, and DELETE, which has no expansion. -/
inductive Pseudo where
  | first | last | atSlot (index : Nat) | get | isEmpty | isFull | construct (req : Nat) | delete
deriving DecidableEq, Repr

/-- One line of a listing (R53). -/
inductive Line where
  | command (i : Instr)
  | pseudo (p : Pseudo)
  | capDirective (req : Nat)
deriving DecidableEq, Repr

/-- What a line stands for: a command at one edge, or a read of an output in the current cycle (R54). -/
inductive Item where
  | edge (i : Instr)
  | readEmpty
  | readFull
deriving DecidableEq, Repr

/-- Why the assembler refuses a line. -/
inductive ListingError where
  /-- No mnemonic of R53 or R54. -/
  | unknownMnemonic
  /-- The operands are not those of the mnemonic. -/
  | badOperands
  /-- A literal outside its range (R53). -/
  | outOfRange
  /-- `.cap` or CONSTRUCT after the first command, or a second capacity (R53). -/
  | lateCapacity
  /-- DELETE is refused (R54). -/
  | deleteRefused
deriving DecidableEq, Repr

/-- A command whose literals are in range (R53): bytes are by their type, indices by `W`. -/
def Instr.checked (c : Config) (i : Instr) : Except ListingError (List Item) :=
  if i.wellFormed c then .ok [.edge i] else .error .outOfRange

/-- The expansions of R54 that do not fix the capacity. -/
def Pseudo.expand (c : Config) : Pseudo → Except ListingError (List Item)
  | .first       => Instr.checked c (.peek 0)
  | .last        => Instr.checked c (.peek (c.cap - 1))
  | .atSlot a    => Instr.checked c (.peek a)
  | .get         => Instr.checked c .pop
  | .isEmpty     => .ok [.readEmpty]
  | .isFull      => .ok [.readFull]
  | .construct _ => Instr.checked c .reset
  | .delete      => .error .deleteRefused

/-- The capacity a line fixes, if it is one that does: `.cap <n>`, and CONSTRUCT `<k>`, which expands to `.cap <k>`
then RESET (R53, R54). -/
def Line.capacity? : Line → Option Nat
  | .capDirective req          => some req
  | .pseudo (.construct req)   => some req
  | .pseudo .first             => none
  | .pseudo .last              => none
  | .pseudo (.atSlot _)        => none
  | .pseudo .get               => none
  | .pseudo .isEmpty           => none
  | .pseudo .isFull            => none
  | .pseudo .delete            => none
  | .command _                 => none

/-- The items of a line, on a block of configuration `c`. -/
def Line.items (c : Config) : Line → Except ListingError (List Item)
  | .command i      => Instr.checked c i
  | .pseudo p       => p.expand c
  | .capDirective _ => .ok []

/-- Lines that may follow the capacity: none fixes it again (R53). -/
def assembleLines (c : Config) : List Line → Except ListingError (List Item)
  | []      => .ok []
  | l :: ls =>
    match l.capacity? with
    | some _ => .error .lateCapacity
    | none   => do
      let here ← l.items c
      let rest ← assembleLines c ls
      pure (here ++ rest)

/-- A line that only reads an output, which is no command (R54). -/
def Line.isRead (l : Line) : Bool := l == .pseudo .isEmpty || l == .pseudo .isFull

/-- A listing: the capacity, when a line before the first command fixes it (R53), else the given configuration; and its
items in order. -/
def assemble (given : Config) : List Line → Except ListingError (Config × List Item)
  | []      => .ok (given, [])
  | l :: ls =>
    match l.capacity? with
    | some req => do
      let c : Config := { reqCapacity := req }
      let here ← l.items c
      let rest ← assembleLines c ls
      pure (c, here ++ rest)
    | none     =>
      if l.isRead then do
        let here ← l.items given
        let (c, rest) ← assemble given ls
        pure (c, here ++ rest)
      else do
        let here ← l.items given
        let rest ← assembleLines given ls
        pure (given, here ++ rest)

/-- The commands of a listing, one an edge. -/
def commandsOf (items : List Item) : List Instr :=
  items.filterMap fun
    | .edge i    => some i
    | .readEmpty => none
    | .readFull  => none

/-- What an output read shows in the current cycle; a command shows nothing (R54, R57). -/
def Item.shown (s : State) : Item → Option Bool
  | .edge _    => none
  | .readEmpty => some s.empty
  | .readFull  => some s.full

/-! ## Reading a line -/

/-- Blank characters. -/
def isBlank (c : Char) : Bool := c == ' ' || c == '\t'

/-- The text before a comment (R53: a comment starts at `;`). -/
def stripComment (text : List Char) : List Char := text.takeWhile (· != ';')

/-- A text without the blanks at its ends. -/
def trim (text : List Char) : List Char :=
  ((text.dropWhile isBlank).reverse.dropWhile isBlank).reverse

/-- A text cut at every comma. -/
def splitCommas : List Char → List (List Char)
  | []      => [[]]
  | c :: cs =>
    match splitCommas cs with
    | []      => [[c]]
    | w :: ws => if c == ',' then [] :: w :: ws else (c :: w) :: ws

/-- The value of a digit written in upper case. -/
def digitValue (c : Char) : Option Nat :=
  if '0'.toNat ≤ c.toNat ∧ c.toNat ≤ '9'.toNat then some (c.toNat - '0'.toNat)
  else if 'A'.toNat ≤ c.toNat ∧ c.toNat ≤ 'F'.toNat then some (c.toNat - 'A'.toNat + 10)
  else none

/-- The number that digits of a base write, most significant first. -/
def digitsValue (base : Nat) (digits : List Char) : Option Nat :=
  digits.foldl (fun acc c =>
    match acc, digitValue c with
    | some n, some d => if d < base then some (n * base + d) else none
    | _, _           => none) (some 0)

/-- An integer literal: decimal, `0x` hex or `0b` binary (R53); the text is in upper case. -/
def literal : List Char → Option Nat
  | []                => none
  | ['0', 'X']        => none
  | ['0', 'B']        => none
  | '0' :: 'X' :: hex => digitsValue 16 hex
  | '0' :: 'B' :: bin => digitsValue 2 bin
  | decimal           => digitsValue 10 decimal

/-- A byte literal, in [0, 255] (R53). -/
def byteLiteral (n : Nat) : Except ListingError Byte :=
  if n < 256 then .ok (BitVec.ofNat 8 n) else .error .outOfRange

/-- A mnemonic of R53 or R54. -/
inductive Mnemonic where
  | nop | push | pop | pushpop | peek | peekpush | clear | reset
  | first | last | atSlot | get | isEmpty | isFull | construct | delete | cap
deriving DecidableEq, Repr

/-- The mnemonics and their spellings. -/
def mnemonics : List (List Char × Mnemonic) :=
  [ (['N', 'O', 'P'], .nop),
    (['P', 'U', 'S', 'H'], .push),
    (['P', 'O', 'P'], .pop),
    (['P', 'U', 'S', 'H', 'P', 'O', 'P'], .pushpop),
    (['P', 'E', 'E', 'K'], .peek),
    (['P', 'E', 'E', 'K', 'P', 'U', 'S', 'H'], .peekpush),
    (['C', 'L', 'E', 'A', 'R'], .clear),
    (['R', 'E', 'S', 'E', 'T'], .reset) ] ++
  [ (['F', 'I', 'R', 'S', 'T'], .first),
    (['L', 'A', 'S', 'T'], .last),
    (['A', 'T'], .atSlot),
    (['G', 'E', 'T'], .get),
    (['I', 'S', 'E', 'M', 'P', 'T', 'Y'], .isEmpty),
    (['I', 'S', 'F', 'U', 'L', 'L'], .isFull),
    (['C', 'O', 'N', 'S', 'T', 'R', 'U', 'C', 'T'], .construct),
    (['D', 'E', 'L', 'E', 'T', 'E'], .delete),
    (['.', 'C', 'A', 'P'], .cap) ]

/-- The line of a mnemonic with its operands, already read as numbers. -/
def Mnemonic.line : Mnemonic → List Nat → Except ListingError Line
  | .nop,       []     => .ok (.command .nop)
  | .push,      [b]    => do let d ← byteLiteral b; pure (.command (.push d))
  | .pop,       []     => .ok (.command .pop)
  | .pushpop,   [b]    => do let d ← byteLiteral b; pure (.command (.pushpop d))
  | .peek,      [a]    => .ok (.command (.peek a))
  | .peekpush,  [a, b] => do let d ← byteLiteral b; pure (.command (.peekpush a d))
  | .clear,     []     => .ok (.command .clear)
  | .reset,     []     => .ok (.command .reset)
  | .first,     []     => .ok (.pseudo .first)
  | .last,      []     => .ok (.pseudo .last)
  | .atSlot,    [a]    => .ok (.pseudo (.atSlot a))
  | .get,       []     => .ok (.pseudo .get)
  | .isEmpty,   []     => .ok (.pseudo .isEmpty)
  | .isFull,    []     => .ok (.pseudo .isFull)
  | .construct, [k]    => .ok (.pseudo (.construct k))
  | .delete,    []     => .ok (.pseudo .delete)
  | .cap,       [n]    => .ok (.capDirective n)
  | _,          _      => .error .badOperands

/-- The operands after a mnemonic: literals apart by commas. -/
def operands (text : List Char) : Except ListingError (List Nat) :=
  match trim text with
  | [] => .ok []
  | _  =>
    match (splitCommas text).mapM (fun w => literal (trim w)) with
    | some ns => .ok ns
    | none    => .error .badOperands

/-- One line of text: nothing when only blanks and a comment stand on it. Mnemonics are case-insensitive (R53). -/
def parseLine (text : List Char) : Except ListingError (Option Line) :=
  let body := trim ((stripComment text).map Char.toUpper)
  match body with
  | [] => .ok none
  | _  =>
    let name := body.takeWhile (fun c => !isBlank c)
    match mnemonics.find? (fun m => m.1 == name) with
    | none   => .error .unknownMnemonic
    | some m => do
      let ns ← operands (body.drop name.length)
      let l ← m.2.line ns
      pure (some l)

/-- The lines of a text, in order. -/
def parseListing : List (List Char) → Except ListingError (List Line)
  | []      => .ok []
  | t :: ts => do
    let l ← parseLine t
    let ls ← parseListing ts
    pure (l.toList ++ ls)

/-- A listing's text assembled (R53, R54). -/
def assembleText (given : Config) (text : List (List Char)) : Except ListingError (Config × List Item) := do
  let ls ← parseListing text
  assemble given ls

/-! ## Running a listing -/

/-- The items of a listing against the machine: a command is one step with its pins presented, a read shows an output of
the cycle. The reads are answered in order, oldest first. -/
def runItems : List Item → State → List Bool → Host.Outcome State Fault Refusal × List Bool
  | [], s, shown => (.next s, shown)
  | .readEmpty :: is, s, shown => runItems is s (shown ++ [s.empty])
  | .readFull :: is, s, shown => runItems is s (shown ++ [s.full])
  | .edge i :: is, s, shown =>
    match step (s.withNextSample (Sample.ofInstr s.config i)) with
    | .next s'   => runItems is s' shown
    | .fault f   => (.fault f, shown)
    | .refused r => (.refused r, shown)

end Sys2Proof.Machine
end

