-- ==== Sys2Proof/Machine/Ports.lean ====
section
/-! DEFINITION. The dual-port memory array interface (R29 to R33): what the controller drives on the array's ports in a
cycle, and what the array does at the edge. The meanings of the commands do not go through it; that they agree with it is
a statement (Obligations.CommandsRefineTheArrayPorts). A don't-care port value of R33 is not represented. -/

namespace Sys2Proof.Machine

/-- The output register a read of the array is captured into (R30). -/
inductive OutReg where
  | popData | peekData
deriving DecidableEq, Repr

/-- The array's ports in one cycle. -/
structure ArrayPorts where
  /-- `mem_clr` (R32). -/
  clr   : Bool
  /-- `mem_we = 1` with `mem_waddr` and `mem_wdata`, or `mem_we = 0` (R29). -/
  write : Option (Nat × Byte)
  /-- `mem_re = 1` with `mem_raddr` and the register that captures, or `mem_re = 0` (R30). -/
  read  : Option (Nat × OutReg)
deriving DecidableEq, Repr

/-- The table of R33, row by row. -/
def State.ports (s : State) : Instr → ArrayPorts
  | .reset        => { clr := true,  write := none,                read := none }
  | .clear        => { clr := true,  write := none,                read := none }
  | .nop          => { clr := false, write := none,                read := none }
  | .push d       => { clr := false, write := some (s.wr.idx, d),  read := none }
  | .pop          => { clr := false, write := none,                read := some (s.rd.idx, .popData) }
  | .pushpop d    => { clr := false, write := some (s.wr.idx, d),  read := some (s.rd.idx, .popData) }
  | .peek a       => { clr := false, write := none,                read := some (a, .peekData) }
  | .peekpush a d => { clr := false, write := some (s.wr.idx, d),  read := some (a, .peekData) }

/-- The array after an edge: cleared, or written through its one write port (R29, R32). -/
def ArrayPorts.memoryAfter (p : ArrayPorts) (m : Memory) : Memory :=
  if p.clr then Memory.clearAll
  else match p.write with
    | some (a, v) => Memory.write m a v
    | none        => m

/-- What is captured at an edge: the byte as it stood before the edge (R30, R31); nothing when the clear line acts (R32),
and nothing for an index that is no slot: the array is then not read (R33, R67; log 13). -/
def ArrayPorts.captured (p : ArrayPorts) (cap : Nat) (m : Memory) : Option (OutReg × Byte) :=
  if p.clr then none
  else match p.read with
    | some (a, r) => if a < cap then some (r, Memory.read m a) else none
    | none        => none

/-- The byte an output register holds. -/
def State.outReg (s : State) : OutReg → Byte
  | .popData  => s.popData
  | .peekData => s.peekData

end Sys2Proof.Machine
end

