-- ==== Sys2Proof/Safety.lean ====
section
/-! DEFINITION. The terms claims are made in: the hardware part of a state (R13), the invariant of R18, the queue a state
stands for and what a command does to it (R60), the agents' duties (R84), and runs with what they push and pop. -/

namespace Sys2Proof.Machine

/-- The hardware state alone, with the configuration it is built for (R13). -/
structure Hardware where
  config   : Config
  storage  : Memory
  wr       : Cursor
  rd       : Cursor
  popData  : Byte
  peekData : Byte
deriving DecidableEq, Repr

/-- The hardware part of a state (R13). -/
def State.hw (s : State) : Hardware :=
  { config := s.config, storage := s.storage, wr := s.wr, rd := s.rd, popData := s.popData, peekData := s.peekData }

/-- Both cursors name slots (R18). -/
def State.CursorsInRange (s : State) : Prop := s.wr.idx < s.cap ∧ s.rd.idx < s.cap

/-- What every state of the block meets: the cursors in range (R18), and the array `CAP` slots in canonical form (R19). -/
def State.Inv (s : State) : Prop := s.CursorsInRange ∧ Memory.wf s.cap s.storage

/-- No violation has been recorded: the premise of every claim about a run (R73, R75). -/
def State.Clean (s : State) : Prop := s.violations = []

/-! ## What the agents present -/

/-- The pin that each bit of CTRL samples (R45). -/
def ctrlPin (x : Sample) : Fin 5 → Level
  | 0 => x.producer.push
  | 1 => x.consumer.pop
  | 2 => x.consumer.peek
  | 3 => x.controller.clr
  | 4 => x.controller.rst

/-- A sample of this block's bus widths whose control pins under the mask are known and show the pattern; the other control
pins, and both buses, may show anything, X and Z too (R44, R45, R48). -/
def Presents (c : Config) (x : Sample) (pattern mask : BitVec 5) : Prop :=
  x.producer.pushData.length = 8 ∧ x.consumer.peekAddr.length = c.width ∧
  ∀ k : Fin 5, mask.getLsbD k = true → (ctrlPin x k).bit? = some (pattern.getLsbD k)

/-- The commands that use `push_data` (R46, R48). -/
def usesPushData (k : Command) : Prop := k = .push ∨ k = .pushpop ∨ k = .peekpush

/-- The commands that use `peek_addr` (R46, R48). -/
def usesPeekAddr (k : Command) : Prop := k = .peek ∨ k = .peekpush

/-- The state at which the command of the next edge runs: its sample taken, the edge counted. -/
def State.atEdge (s : State) (rest : List Sample) : State := { s with inputs := rest, edge := s.edge + 1 }

/-! ## The parts of a command -/

/-- The byte a command pushes, if it pushes (R60: PUSH, PUSHPOP, PEEKPUSH). -/
def pushedBytes : Instr → List Byte
  | .reset        => []
  | .clear        => []
  | .nop          => []
  | .push d       => [d]
  | .pop          => []
  | .pushpop d    => [d]
  | .peek _       => []
  | .peekpush _ d => [d]

/-- The command includes a pop (R60: POP, PUSHPOP). -/
def includesPop : Instr → Bool
  | .reset        => false
  | .clear        => false
  | .nop          => false
  | .push _       => false
  | .pop          => true
  | .pushpop _    => true
  | .peek _       => false
  | .peekpush _ _ => false

/-- The index of the peek a command includes, if it peeks. -/
def peekIndex? : Instr → Option Nat
  | .reset        => none
  | .clear        => none
  | .nop          => none
  | .push _       => none
  | .pop          => none
  | .pushpop _    => none
  | .peek a       => some a
  | .peekpush a _ => some a

/-- The command puts the queue back to its start: RESET or CLEAR. -/
def restarts : Instr → Bool
  | .reset        => true
  | .clear        => true
  | .nop          => false
  | .push _       => false
  | .pop          => false
  | .pushpop _    => false
  | .peek _       => false
  | .peekpush _ _ => false

/-! ## The queue -/

/-- The bytes pushed and not yet popped, oldest first: the `occ` slots from `rd_idx` forward with wrap (R60, item 3). -/
def State.contents (s : State) : List Byte :=
  (List.range s.occ).map fun k => Memory.read s.storage ((s.rd.idx + k) % s.cap)

/-- A queue of bytes after a command: what the block stands for while no violation occurs. -/
def queueAfter (i : Instr) (q : List Byte) : List Byte :=
  if restarts i then [] else (if includesPop i then q.tail else q) ++ pushedBytes i

/-! ## The agents' duties (R84) -/

/-- The consumer presents a pop only when `occ > 0`, which it sees as not (`empty = 1 and full = 0`). -/
def ConsumerDuty (s : State) (i : Instr) : Prop :=
  includesPop i = true → ¬(s.consumerView.empty = true ∧ s.consumerView.full = false)

/-- The producer presents a push without a pop only when `full = 0`. -/
def ProducerDuty (s : State) (i : Instr) : Prop :=
  pushedBytes i ≠ [] → includesPop i = false → s.producerView.full = false

/-- The controller presents RESET before any other command. -/
def ControllerDuty (s : State) (i : Instr) : Prop :=
  s.resetSeen = true ∨ i = .reset

/-- A peek names a slot (R36, R67). -/
def PeekInRange (s : State) (i : Instr) : Prop :=
  ∀ a, peekIndex? i = some a → a < s.cap

/-! ## Runs -/

/-- What a run did: where it ended, the bytes it pushed and the bytes its pops returned, each in order. -/
structure Trace where
  final  : State
  pushed : List Byte
  popped : List Byte
deriving DecidableEq, Repr

/-- `k` edges from a state, none of them a RESET or CLEAR, with the bytes pushed and popped; none where the machine stops
or one of the edges is a RESET or CLEAR. -/
def queueRun : Nat → State → Option Trace
  | 0, s => some { final := s, pushed := [], popped := [] }
  | k + 1, s =>
    match s.fetch with
    | .error _   => none
    | .ok (i, u) =>
      if restarts i then none
      else match exec i u with
        | .next t =>
          match queueRun k t with
          | some r => some { r with
              pushed := pushedBytes i ++ r.pushed
              popped := (if includesPop i then [t.popData] else []) ++ r.popped }
          | none   => none
        | .fault _   => none
        | .refused _ => none

end Sys2Proof.Machine
end

