-- ==== Sys2Proof/Certificates/Slice0/Obligations.lean ====
section
/-! DEFINITION. The statements for the provers. Each says what a rule of spec/ says of the model; docstrings cite it.
A free byte (`Config.peekOobValue`) stands in a statement by name only: every value of it is meant. -/

open Sys2Proof Sys2Proof.Machine

/-! ## Parameters -/

/-- R3: `CAP` is 128 when `REQ_CAPACITY = 0`, else `REQ_CAPACITY`; at least 1; no edge changes it. -/
def Obligations.CapacityIsFixedForLife : Prop :=
  (∀ c : Config, c.cap = (if c.reqCapacity = 0 then 128 else c.reqCapacity) ∧ 1 ≤ c.cap) ∧
  (∀ s t : State, step s = .next t → t.config = s.config ∧ t.cap = s.cap)

/-- R5: `clog2` is the least exponent, `W = max(1, clog2(CAP))` is the width of the index port, and a cursor's index fits it;
with the rule's three values. -/
def Obligations.IndexWidthIsLeast : Prop :=
  (∀ n, n ≤ 2 ^ clog2 n ∧ ∀ k, n ≤ 2 ^ k → clog2 n ≤ k) ∧
  (∀ c : Config, c.width = max 1 (clog2 c.cap)) ∧
  (∀ (c : Config) (x : Sample) (i : Instr), decode c x = .ok i → x.consumer.peekAddr.length = c.width) ∧
  (∀ (c : Config) (idx : Nat), idx < c.cap → idx < 2 ^ c.width) ∧
  (∀ c : Config, (c.cap = 128 → c.width = 7) ∧ (c.cap = 1 → c.width = 1) ∧ (c.cap = 5 → c.width = 3))

/-! ## Encoding -/

/-- R48: every control field matches exactly one row of the table, and it is the command the decoder gives. -/
def Obligations.CommandTableAgreesWithDecoder : Prop :=
  ∀ ctrl : BitVec 5, (commandTable.filter fun r => r.matches ctrl).map (fun r => r.command) = [decodeCtrl ctrl]

/-- R47: the priority of the request bits, as the command that a sample's control field decodes to; a push and a pop, or a
push and a peek, in one cycle are both performed. -/
def Obligations.DecodePriority : Prop :=
  ∀ (c : Config) (x : Sample) (ctrl : BitVec 5) (i : Instr), Presents c x ctrl 0b11111#5 → decode c x = .ok i →
    let p := ctrl.getLsbD 0
    let q := ctrl.getLsbD 1
    let k := ctrl.getLsbD 2 && !ctrl.getLsbD 1
    (ctrl.getLsbD 4 = true → i = .reset) ∧
    (ctrl.getLsbD 4 = false → ctrl.getLsbD 3 = true → i = .clear) ∧
    (ctrl.getLsbD 4 = false → ctrl.getLsbD 3 = false →
      ((k, q, p) = (false, false, false) → i = .nop) ∧
      ((k, q, p) = (false, false, true) → ∃ d, i = .push d) ∧
      ((k, q, p) = (false, true, false) → i = .pop) ∧
      ((k, q, p) = (false, true, true) → ∃ d, i = .pushpop d) ∧
      ((k, q, p) = (true, false, false) → ∃ a, i = .peek a) ∧
      ((k, q, p) = (true, false, true) → ∃ a d, i = .peekpush a d))

/-- R51 and the total decode of R47: a sample of the block's widths with every pin known decodes, whatever its control field
and its operands, to a command the pins can carry. -/
def Obligations.EveryKnownSampleDecodes : Prop :=
  ∀ (c : Config) (x : Sample) (ctrl : BitVec 5) (m n : Nat), Presents c x ctrl 0b11111#5 →
    busValue x.producer.pushData = some m → busValue x.consumer.peekAddr = some n →
    ∃ i, decode c x = .ok i ∧ i.command = decodeCtrl ctrl ∧ i.wellFormed c = true

/-- R50, R47: decoding the command word of a well-formed command gives the command, for every capacity and every operand the
pins admit, and the word has 13 + W bits. -/
def Obligations.DecodeEncodeRoundTrip : Prop :=
  ∀ (c : Config) (i : Instr), i.wellFormed c = true →
    encode c i < 2 ^ (13 + c.width) ∧ decodeWord c (encode c i) = .ok i ∧ decode c (Sample.ofInstr c i) = .ok i

/-- R45 to R49: whatever decodes is well formed, and presenting it again decodes to it. -/
def Obligations.DecodedCommandsAreWellFormed : Prop :=
  ∀ (c : Config) (x : Sample) (i : Instr), decode c x = .ok i →
    i.wellFormed c = true ∧ decode c (Sample.ofInstr c i) = .ok i

/-- R50: where each field of the command word stands, that don't-care operand fields are 0, and the rule's four words. -/
def Obligations.CommandWordLayout : Prop :=
  (∀ (c : Config) (ctrl : BitVec 5) (d : Byte) (a : Nat), a < 2 ^ c.width →
    let w := commandWord c ctrl d a
    w < 2 ^ (13 + c.width) ∧
    w.testBit (c.width + 12) = ctrl.getLsbD 4 ∧ w.testBit (c.width + 11) = ctrl.getLsbD 3 ∧
    w.testBit (c.width + 10) = ctrl.getLsbD 2 ∧ w.testBit (c.width + 9) = ctrl.getLsbD 1 ∧
    w.testBit (c.width + 8) = ctrl.getLsbD 0 ∧
    w / 2 ^ c.width % 2 ^ 8 = d.toNat ∧ w % 2 ^ c.width = a) ∧
  (∀ (c : Config) (i : Instr), i.wellFormed c = true →
    encode c i / 2 ^ (c.width + 8) = (encodeCtrl i.command).toNat ∧
    (pushedBytes i = [] → encode c i / 2 ^ c.width % 2 ^ 8 = 0) ∧
    (peekIndex? i = none → encode c i % 2 ^ c.width = 0)) ∧
  (∀ c : Config, c.cap = 4 →
    encode c (.push 0x41) = 0x0504 ∧ encode c .pop = 0x0800 ∧ encode c (.peek 3) = 0x1003 ∧ encode c .reset = 0x4000)

/-- R50, 95_test_vectors.md: words the spec writes out decode to the commands it gives them. -/
def Obligations.SpecWordsDecode : Prop :=
  decodeWord { reqCapacity := 4 } 0x4000 = .ok .reset ∧
  decodeWord { reqCapacity := 5 } 0x4000 = .ok .clear ∧
  decodeWord { reqCapacity := 4 } 0x0000 = .ok .nop ∧
  decodeWord { reqCapacity := 4 } 0x0504 = .ok (.push 0x41) ∧
  decodeWord { reqCapacity := 1 } 0x0400 = .ok .pop ∧
  decodeWord { reqCapacity := 4 } 0x0C14 = .ok (.pushpop 5) ∧
  decodeWord { reqCapacity := 5 } 0x2006 = .ok (.peek 6) ∧
  decodeWord { reqCapacity := 0 } 0x2DD80 = .ok (.peekpush 0 0xBB)

/-- 30_encoding.md section 2, in spec/opcode_table.json's numbering (operands 0 and bits above CTRL ignored: the model's choice,
log 10): each row's bits decode to the row's command, and are what
the first step after reset runs when they are presented to it. -/
def Obligations.TableRowsRunAfterReset : Prop :=
  ∀ r ∈ commandTable, ∃ i, decodeTableWord 8 r.pattern.toNat = some i ∧ i.command = r.command ∧
    step (State.reset.withFetchWord 8 r.pattern.toNat) = exec i (State.reset.atEdge [])

/-- R46: an operand field that the effective command does not use has no effect on the step, X and Z on it included, and one it
uses is used unmodified. That a control pin the command's row of R48 leaves open has no effect either, X and Z included, is the
model's reading (DEDUCED, log 3). For a peek out of range the two steps get one free byte by the model's choice of equal draws
(log 4). -/
def Obligations.UnusedOperandsHaveNoEffect : Prop :=
  (∀ (s : State) (x y : Sample) (rest : List Sample) (r : TableRow), r ∈ commandTable →
    Presents s.config x r.pattern r.mask → Presents s.config y r.pattern r.mask →
    (usesPushData r.command → x.producer.pushData = y.producer.pushData) →
    (usesPeekAddr r.command → x.consumer.peekAddr = y.consumer.peekAddr) →
    step { s with inputs := x :: rest } = step { s with inputs := y :: rest }) ∧
  (∀ (c : Config) (x : Sample) (i : Instr), decode c x = .ok i →
    (∀ d ∈ pushedBytes i, busValue x.producer.pushData = some d.toNat) ∧
    (∀ a, peekIndex? i = some a → busValue x.consumer.peekAddr = some a))

/-- R52, 92_eei_decisions.md D24: a sample in which a used input is X or Z is refused as unknown, and no other sample of the
block's widths is refused, whatever its don't-care inputs show. `rst` is always used, `clr` with `rst = 0`, `pop` and `push`
with neither, `peek` with no pop either (R48, R55, R56, R63, R65), an operand when the command uses it (R46); that a request
of these rules counts as don't-care for R52 is the model's reading (DEDUCED, log 3). -/
def Obligations.UnknownUsedInputsAreRefused : Prop :=
  ∀ (s : State) (x : Sample) (rest : List Sample), s.inputs = x :: rest →
    x.producer.pushData.length = 8 → x.consumer.peekAddr.length = s.config.width →
    let unknown : Prop :=
      x.controller.rst.bit? = none ∨
      (x.controller.rst = .low ∧ x.controller.clr.bit? = none) ∨
      (x.controller.rst = .low ∧ x.controller.clr = .low ∧
        (x.consumer.pop.bit? = none ∨ x.producer.push.bit? = none ∨
          (x.consumer.pop = .low ∧ x.consumer.peek.bit? = none))) ∨
      (∃ r ∈ commandTable, Presents s.config x r.pattern r.mask ∧
        ((usesPushData r.command ∧ busValue x.producer.pushData = none) ∨
         (usesPeekAddr r.command ∧ busValue x.consumer.peekAddr = none)))
    (unknown → ∃ p, step s = .refused (.badSample (.unknownInput p))) ∧
    (¬unknown → ∀ r, step s ≠ .refused r)

/-! ## The step -/

/-- R10, R11, R45: when the sample of the next edge decodes to a command, the step is that command's meaning at the state with
the sample taken and the edge counted. -/
def Obligations.StepRunsTheDecodedCommand : Prop :=
  ∀ (s : State) (x : Sample) (rest : List Sample) (i : Instr), s.inputs = x :: rest → decode s.config x = .ok i →
    step s = exec i (s.atEdge rest)

/-- R24, R45: a well-formed command put on the pins of the next edge is what that edge runs. -/
def Obligations.PresentedCommandRunsAtTheNextEdge : Prop :=
  ∀ (s : State) (i : Instr), i.wellFormed s.config = true →
    step (s.withNextSample (Sample.ofInstr s.config i)) = exec i (s.atEdge (s.inputs.drop 1))

/-- R11, R23: the outputs are functions of the hardware state alone. -/
def Obligations.OutputsDependOnHardwareAlone : Prop :=
  ∀ s u : State, s.hw = u.hw → s.outputs = u.outputs

/-- The stops of the model outside the block's own states and inputs (its choices, log 2, log 3 and log 8): no sample, a bus of
another width, and a cursor that names no slot stop the command by name. -/
def Obligations.StopsAreNamed : Prop :=
  (∀ s : State, s.inputs = [] → step s = .refused .noSample) ∧
  (∀ (s : State) (x : Sample) (rest : List Sample), s.inputs = x :: rest → x.producer.pushData.length ≠ 8 →
    step s = .refused (.badSample (.busWidth .pushData))) ∧
  (∀ (s : State) (x : Sample) (rest : List Sample), s.inputs = x :: rest → x.producer.pushData.length = 8 →
    x.consumer.peekAddr.length ≠ s.config.width → step s = .refused (.badSample (.busWidth .peekAddr))) ∧
  (∀ (s : State) (a : Nat) (d : Byte), s.cap ≤ s.wr.idx →
    exec (.push d) s = .fault (.noSuchSlot s.wr.idx) ∧ exec (.peekpush a d) s = .fault (.noSuchSlot s.wr.idx) ∧
    (s.rd.idx < s.cap → exec (.pushpop d) s = .fault (.noSuchSlot s.wr.idx))) ∧
  (∀ (s : State) (d : Byte), s.cap ≤ s.rd.idx →
    exec .pop s = .fault (.noSuchSlot s.rd.idx) ∧ exec (.pushpop d) s = .fault (.noSuchSlot s.rd.idx))

/-! ## Control commands -/

/-- R55: RESET from any state gives the reset values, keeps the violation log and raises nothing, and repeats as itself; every
sample with `rst = 1` runs it, whatever the other pins show (X and Z on the other requests: the model's reading, DEDUCED,
log 3); and no other command writes an output register without a read. -/
def Obligations.ResetRule : Prop :=
  (∀ s : State, exec .reset s = .next { s with
      storage := [], wr := { idx := 0, lap := false }, rd := { idx := 0, lap := false },
      popData := 0x00, peekData := 0x00, resetSeen := true }) ∧
  (∀ s t : State, exec .reset s = .next t →
    (∀ a, Memory.read t.storage a = 0x00) ∧ t.empty = true ∧ t.full = false ∧ t.occ = 0 ∧ exec .reset t = .next t) ∧
  (∀ (s : State) (x : Sample) (rest : List Sample), s.inputs = x :: rest → Presents s.config x 0b10000#5 0b10000#5 →
    step s = exec .reset (s.atEdge rest)) ∧
  (∀ (i : Instr) (s t : State), exec i s = .next t → i ≠ .reset →
    (includesPop i = false → t.popData = s.popData) ∧ (peekIndex? i = none → t.peekData = s.peekData))

/-- R56: CLEAR from any state zeroes the array and the cursors and keeps the output registers; NO_RESET is recorded before the
first RESET (R74) and nothing otherwise; every sample with `rst = 0` and `clr = 1` runs it, whatever the other pins show (X
and Z on push, pop and peek: the model's reading, DEDUCED, log 3). -/
def Obligations.ClearRule : Prop :=
  (∀ s : State, exec .clear s = .next { s with
      storage := [], wr := { idx := 0, lap := false }, rd := { idx := 0, lap := false },
      violations := s.violations ++ (if s.resetSeen then [] else [⟨s.edge, .noReset .clear⟩]) }) ∧
  (∀ s t : State, exec .clear s = .next t →
    (∀ a, Memory.read t.storage a = 0x00) ∧ t.empty = true ∧ t.full = false ∧ t.occ = 0) ∧
  (∀ (s : State) (x : Sample) (rest : List Sample), s.inputs = x :: rest → Presents s.config x 0b01000#5 0b11000#5 →
    step s = exec .clear (s.atEdge rest))

/-- R57: NOP writes no state element and leaves the outputs as they are; NO_RESET is recorded before the first RESET (R74). -/
def Obligations.NopRule : Prop :=
  (∀ s : State, exec .nop s = .next { s with
      violations := s.violations ++ (if s.resetSeen then [] else [⟨s.edge, .noReset .nop⟩]) }) ∧
  (∀ s t : State, exec .nop s = .next t → t.outputs = s.outputs) ∧
  (∀ (s : State) (x : Sample) (rest : List Sample), s.inputs = x :: rest → Presents s.config x 0b00000#5 0b11111#5 →
    step s = exec .nop (s.atEdge rest))

/-- R58, R88, R89: construction is elaboration and one RESET edge from power-up, whatever was drawn: an empty block of exactly
the capacity asked for (128 for 0) with every slot 0x00; more RESET edges change the edge number alone; a capacity the target
cannot build is refused (R7). -/
def Obligations.ConstructGivesAnEmptyBlock : Prop :=
  (∀ (buildable : Nat → Bool) (d : PowerUp) (req : Nat),
    buildable (if req = 0 then 128 else req) = true →
    construct buildable d req = .ok (.next (State.resetWith { reqCapacity := req }))) ∧
  (∀ (buildable : Nat → Bool) (d : PowerUp) (req : Nat),
    buildable (if req = 0 then 128 else req) = false →
    construct buildable d req = .error (.unbuildable (if req = 0 then 128 else req))) ∧
  (∀ (c : Config) (d : PowerUp) (n : Nat),
    Sys2Proof.core.run (n + 1) ((State.powerUp c d).presenting (List.replicate (n + 1) .reset)) =
      .next { State.resetWith c with edge := n + 1 }) ∧
  (∀ req : Nat, (State.resetWith { reqCapacity := req }).empty = true ∧
    (State.resetWith { reqCapacity := req }).full = false ∧
    (∀ a, Memory.read (State.resetWith { reqCapacity := req }).storage a = 0x00) ∧
    (State.resetWith { reqCapacity := req }).cap = if req = 0 then 128 else req)

/-- R90: RESET and CLEAR of one state differ in the output registers and in ending the power-up period, and in nothing else
of the hardware; a CLEAR before the first RESET records NO_RESET. -/
def Obligations.ResetAndClearDiffer : Prop :=
  ∀ s t u : State, exec .reset s = .next t → exec .clear s = .next u →
    t.hw = { u.hw with popData := 0x00, peekData := 0x00 } ∧
    u.popData = s.popData ∧ u.peekData = s.peekData ∧
    t.resetSeen = true ∧ u.resetSeen = s.resetSeen ∧ t.violations = s.violations ∧
    (s.resetSeen = false → u.violations = s.violations ++ [⟨s.edge, .noReset .clear⟩]) ∧
    (∀ a, Memory.read t.storage a = 0x00 ∧ Memory.read u.storage a = 0x00) ∧
    (∀ v : State, v = t ∨ v = u → v.wr = Cursor.start ∧ v.rd = Cursor.start)

/-- R88, R76: before the first RESET a command acts on the hardware by its own rule, records NO_RESET and nothing else, and
does not end the power-up period. For a peek out of range the two runs get one free byte by the model's choice of equal draws
at equal draw counts (log 4). -/
def Obligations.PreResetCommandsActAndRecord : Prop :=
  ∀ (i : Instr) (s t u : State), s.resetSeen = false → i ≠ .reset → exec i s = .next t →
    exec i { s with resetSeen := true } = .next u →
    t.resetSeen = false ∧ t.violations = s.violations ++ [⟨s.edge, .noReset i.command⟩] ∧ t.hw = u.hw

/-! ## Queue commands -/

/-- R59: for every `CAP >= 1` the index becomes `(idx + 1) mod CAP` and the lap bit toggles exactly on the wrap; at `CAP = 1`
the index stays 0 and every advance toggles. -/
def Obligations.CursorAdvanceWraps : Prop :=
  (∀ (cap : Nat) (c : Cursor), c.idx < cap →
    (c.adv cap).idx = (c.idx + 1) % cap ∧
    (c.adv cap).idx = inc cap c.idx ∧
    (c.idx = cap - 1 → (c.adv cap).idx = 0 ∧ (c.adv cap).lap = !c.lap) ∧
    (c.idx ≠ cap - 1 → (c.adv cap).idx = c.idx + 1 ∧ (c.adv cap).lap = c.lap)) ∧
  (∀ c : Cursor, c.idx < 1 → (c.adv 1).idx = 0 ∧ (c.adv 1).lap = !c.lap) ∧
  (∀ (i : Instr) (s t : State), exec i s = .next t → restarts i = false →
    t.wr = (if pushedBytes i = [] then s.wr else s.wr.adv s.cap) ∧
    t.rd = (if includesPop i then s.rd.adv s.cap else s.rd))

/-- R16: an extended pointer is in [0, 2*CAP), and advancing a cursor adds 1 to it modulo `2*CAP`. -/
def Obligations.ExtendedPointerAdvances : Prop :=
  ∀ (cap : Nat) (c : Cursor), c.idx < cap →
    c.ext cap = c.lap.toNat * cap + c.idx ∧ c.ext cap < 2 * cap ∧
    (c.adv cap).ext cap = (c.ext cap + 1) % (2 * cap)

/-- R60, the three laws across an edge: pushes and pops move the extended pointers and the occupancy modulo `2*CAP`. -/
def Obligations.OccupancyArithmetic : Prop :=
  ∀ (i : Instr) (s t : State), s.CursorsInRange → restarts i = false → exec i s = .next t →
    t.wrExt = (s.wrExt + (pushedBytes i).length) % (2 * s.cap) ∧
    t.rdExt = (s.rdExt + (includesPop i).toNat) % (2 * s.cap) ∧
    (t.occ : Int) = ((s.occ : Int) + (pushedBytes i).length - (includesPop i).toNat) % (2 * s.cap)

/-- R61: PUSH completes in every state of the block: it writes and advances, at full too, with OVERFLOW recorded then. The
flags: at `occ = CAP - 1` it sets `full`; at `occ = 0` it clears `empty` for `CAP >= 2`, and for `CAP = 1` sets both (the
rule's own corner case; log 9). -/
def Obligations.PushRule : Prop :=
  (∀ (d : Byte) (s : State), s.CursorsInRange →
    exec (.push d) s = .next { s with
      storage := Memory.write s.storage s.wr.idx d
      wr := s.wr.adv s.cap
      violations := s.violations ++
        (if s.resetSeen then
          (if s.full then [⟨s.edge, .overflow s.wr.idx (Memory.read s.storage s.wr.idx)⟩] else [])
         else [⟨s.edge, .noReset .push⟩]) }) ∧
  (∀ (d : Byte) (s t : State), s.CursorsInRange → exec (.push d) s = .next t →
    (t.empty = true ↔ (s.wr.adv s.cap).idx = s.rd.idx) ∧
    (t.full = true ↔ (s.wr.adv s.cap).idx = s.rd.idx ∧ (s.wr.adv s.cap).lap ≠ s.rd.lap) ∧
    (s.occ = s.cap - 1 → t.full = true) ∧
    (s.occ = 0 → 2 ≤ s.cap → t.empty = false) ∧
    (s.occ = 0 → s.cap = 1 → t.empty = true ∧ t.full = true)) ∧
  (∀ (s : State) (x : Sample) (rest : List Sample) (d : Byte), s.inputs = x :: rest → Presents s.config x 0b00001#5 0b11111#5 →
    x.pushByte = .ok d → step s = exec (.push d) (s.atEdge rest))

/-- R62: a push without a pop at full overwrites the oldest byte and leaves the read cursor; then `occ` is `CAP + 1` (0 for
`CAP = 1`), the flags are down for `CAP >= 2`, the next pop returns the byte just written, and every other slot still holds
its older byte. -/
def Obligations.SilentOverwrite : Prop :=
  ∀ (i : Instr) (d : Byte) (s t : State), s.Inv → s.full = true → (i = .push d ∨ ∃ a, i = .peekpush a d) →
    exec i s = .next t →
    s.wr.idx = s.rd.idx ∧ t.rd = s.rd ∧ Memory.read t.storage s.rd.idx = d ∧
    t.occ = (if s.cap = 1 then 0 else s.cap + 1) ∧
    (2 ≤ s.cap → t.empty = false ∧ t.full = false) ∧
    (∀ u, exec .pop t = .next u → u.popData = d) ∧
    (∀ k, 1 ≤ k → k < s.cap →
      Memory.read t.storage ((s.rd.idx + k) % s.cap) = Memory.read s.storage ((s.rd.idx + k) % s.cap)) ∧
    (s.resetSeen = true → ⟨s.edge, .overflow s.rd.idx (Memory.read s.storage s.rd.idx)⟩ ∈ t.violations)

/-- R63: POP completes in every state of the block: the byte at the read cursor goes to `pop_data`, the cursor advances, the
slot is not erased; UNDERFLOW is recorded when `empty = 1 and full = 0`; a pop at full is legal; the byte stays on `pop_data`
until the next pop or a RESET. That an unknown peek leaves it a POP is the model's reading (DEDUCED, log 3), and
that at `CAP = 1` a pop at `occ = CAP` need not clear `empty` (DEDUCED, log 9). -/
def Obligations.PopRule : Prop :=
  (∀ s : State, s.CursorsInRange →
    exec .pop s = .next { s with
      popData := Memory.read s.storage s.rd.idx
      rd := s.rd.adv s.cap
      violations := s.violations ++
        (if s.resetSeen then (if s.empty = true ∧ s.full = false then [⟨s.edge, .underflow s.rd.idx⟩] else [])
         else [⟨s.edge, .noReset .pop⟩]) }) ∧
  (∀ s t : State, s.CursorsInRange → exec .pop s = .next t →
    (t.empty = true ↔ s.wr.idx = (s.rd.adv s.cap).idx) ∧
    (s.occ = 1 → t.empty = true) ∧
    (s.occ = s.cap → t.full = false ∧ (2 ≤ s.cap → t.empty = false)) ∧
    (1 ≤ s.occ → s.occ ≤ s.cap → t.full = false) ∧
    (∀ (i : Instr) (u : State), exec i t = .next u → includesPop i = false → i ≠ .reset →
      u.popData = Memory.read s.storage s.rd.idx)) ∧
  (∀ (s : State) (x : Sample) (rest : List Sample), s.inputs = x :: rest →
    Presents s.config x 0b00010#5 0b11011#5 → step s = exec .pop (s.atEdge rest))

/-- R64: a pop at occupancy 0 re-reads the slot's stale byte and advances past it; then `occ` is `2*CAP - 1`, the flags are
down for `CAP >= 2`, and UNDERFLOW is recorded. -/
def Obligations.PopAtOccupancyZero : Prop :=
  ∀ s : State, s.CursorsInRange → s.occ = 0 →
    ∃ t, exec .pop s = .next t ∧ t.popData = Memory.read s.storage s.rd.idx ∧ t.storage = s.storage ∧
      t.rd = s.rd.adv s.cap ∧ t.occ = 2 * s.cap - 1 ∧
      (2 ≤ s.cap → t.empty = false ∧ t.full = false) ∧
      (s.resetSeen = true → t.violations = s.violations ++ [⟨s.edge, .underflow s.rd.idx⟩])

/-- R65: PUSHPOP completes in every state of the block: the pop reads the array before the edge, then the push writes; the
occupancy and the flags are unchanged, OVERFLOW is never recorded, and the hardware ends as after POP then PUSH (in either
order when the cursors differ), with the violation of that POP (log 9). That an unknown peek leaves it a PUSHPOP is the model's
reading (DEDUCED, log 3). -/
def Obligations.PushpopRule : Prop :=
  (∀ (d : Byte) (s : State), s.CursorsInRange →
    exec (.pushpop d) s = .next { s with
      popData := Memory.read s.storage s.rd.idx
      storage := Memory.write s.storage s.wr.idx d
      rd := s.rd.adv s.cap
      wr := s.wr.adv s.cap
      violations := s.violations ++
        (if s.resetSeen then (if s.empty = true ∧ s.full = false then [⟨s.edge, .underflow s.rd.idx⟩] else [])
         else [⟨s.edge, .noReset .pushpop⟩]) }) ∧
  (∀ (d : Byte) (s t : State), s.CursorsInRange → exec (.pushpop d) s = .next t →
    t.occ = s.occ ∧ t.empty = s.empty ∧ t.full = s.full ∧
    (∀ u v, exec .pop s = .next u → exec (.push d) u = .next v →
      v.hw = t.hw ∧ (s.resetSeen = true → t.violations = u.violations)) ∧
    (s.wr.idx ≠ s.rd.idx → ∀ u v, exec (.push d) s = .next u → exec .pop u = .next v → v.hw = t.hw)) ∧
  (∀ (s : State) (x : Sample) (rest : List Sample) (d : Byte), s.inputs = x :: rest →
    Presents s.config x 0b00011#5 0b11011#5 → x.pushByte = .ok d →
    step s = exec (.pushpop d) (s.atEdge rest))

/-! ## Peek commands -/

/-- R66: PEEK of a slot puts its byte, read or unread, on `peek_data` and changes nothing else (an index that names no slot:
R67, log 4); repeating it gives the same byte, also after any command but CLEAR, RESET and a push to that slot; at the read cursor it
shows what a pop would return. -/
def Obligations.PeekRule : Prop :=
  (∀ (a : Nat) (s : State),
    exec (.peek a) s = .next { s with
      peekData := if a < s.cap then Memory.read s.storage a else Config.peekOobValue s.draws
      draws := if a < s.cap then s.draws else s.draws + 1
      violations := s.violations ++
        (if s.resetSeen then (if a < s.cap then [] else [⟨s.edge, .peekRange a⟩])
         else [⟨s.edge, .noReset .peek⟩]) }) ∧
  (∀ (a : Nat) (s t u : State), a < s.cap → exec (.peek a) s = .next t → exec (.peek a) t = .next u →
    u.hw = t.hw ∧ t.empty = s.empty ∧ t.full = s.full) ∧
  (∀ (a : Nat) (i : Instr) (s t u v : State), a < s.cap → restarts i = false → (pushedBytes i = [] ∨ a ≠ s.wr.idx) →
    exec (.peek a) s = .next t → exec i t = .next u → exec (.peek a) u = .next v → v.peekData = t.peekData) ∧
  (∀ s t u : State, s.CursorsInRange → exec (.peek s.rd.idx) s = .next t → exec .pop s = .next u →
    t.peekData = u.popData) ∧
  (∀ (s : State) (x : Sample) (rest : List Sample) (a : Nat), s.inputs = x :: rest → Presents s.config x 0b00100#5 0b11111#5 →
    x.peekIndex = .ok a → step s = exec (.peek a) (s.atEdge rest))

/-- R67: a peek whose index names no slot completes: `peek_data` takes a free byte (a fresh draw each time, log 4), nothing else of
the hardware changes because of it, and PEEK_RANGE is recorded. Such an index exists on the port only when `CAP` is no power of
two, or is 1. -/
def Obligations.PeekOutOfRange : Prop :=
  (∀ (a : Nat) (s : State), s.cap ≤ a →
    exec (.peek a) s = .next { s with
      peekData := Config.peekOobValue s.draws
      draws := s.draws + 1
      violations := s.violations ++
        [if s.resetSeen then ⟨s.edge, .peekRange a⟩ else ⟨s.edge, .noReset .peek⟩] }) ∧
  (∀ (a : Nat) (d : Byte) (s t u : State), s.cap ≤ a → exec (.peekpush a d) s = .next t → exec (.push d) s = .next u →
    t.hw = { u.hw with peekData := Config.peekOobValue s.draws } ∧ t.draws = s.draws + 1 ∧
    (s.resetSeen = true → t.violations = u.violations ++ [⟨s.edge, .peekRange a⟩])) ∧
  (∀ c : Config, (∃ a, c.cap ≤ a ∧ a < 2 ^ c.width) ↔ (c.cap = 1 ∨ ¬∃ k, c.cap = 2 ^ k))

/-- R68, R76: PEEKPUSH completes in every state of the block: the peek reads the array before the edge (or takes a free byte, log 4),
the push writes and advances, and OVERFLOW stands before PEEK_RANGE; the flags are those of PUSH. -/
def Obligations.PeekpushRule : Prop :=
  (∀ (a : Nat) (d : Byte) (s : State), s.CursorsInRange →
    exec (.peekpush a d) s = .next { s with
      peekData := if a < s.cap then Memory.read s.storage a else Config.peekOobValue s.draws
      draws := if a < s.cap then s.draws else s.draws + 1
      storage := Memory.write s.storage s.wr.idx d
      wr := s.wr.adv s.cap
      violations := s.violations ++
        (if s.resetSeen then
          (if s.full then [⟨s.edge, .overflow s.wr.idx (Memory.read s.storage s.wr.idx)⟩] else []) ++
          (if a < s.cap then [] else [⟨s.edge, .peekRange a⟩])
         else [⟨s.edge, .noReset .peekpush⟩]) }) ∧
  (∀ (a : Nat) (d : Byte) (s t u : State), s.CursorsInRange → exec (.peekpush a d) s = .next t →
    exec (.push d) s = .next u → t.empty = u.empty ∧ t.full = u.full) ∧
  (∀ (a : Nat) (d : Byte) (s t u : State), s.Inv → a < s.cap → a = s.wr.idx → exec (.peekpush a d) s = .next t →
    exec (.peek a) t = .next u → t.peekData = Memory.read s.storage a ∧ u.peekData = d) ∧
  (∀ (s : State) (x : Sample) (rest : List Sample) (a : Nat) (d : Byte), s.inputs = x :: rest →
    Presents s.config x 0b00101#5 0b11111#5 → x.peekIndex = .ok a → x.pushByte = .ok d →
    step s = exec (.peekpush a d) (s.atEdge rest))

/-- R69: a peek requested with a pop has no effect: the cycle is exactly the POP or PUSHPOP, `peek_data` is kept, and no
PEEK_RANGE is recorded, whatever `peek_addr` shows; the array's one read is the pop's. -/
def Obligations.PeekWithPopIsDropped : Prop :=
  ∀ (s : State) (x : Sample) (rest : List Sample), s.inputs = x :: rest →
    (Presents s.config x 0b00110#5 0b11111#5 → step s = exec .pop (s.atEdge rest)) ∧
    (∀ d, Presents s.config x 0b00111#5 0b11111#5 → x.pushByte = .ok d → step s = exec (.pushpop d) (s.atEdge rest)) ∧
    (Presents s.config x 0b00110#5 0b11111#5 ∨ Presents s.config x 0b00111#5 0b11111#5 → ∀ t, step s = .next t →
      t.peekData = s.peekData ∧
      ∀ r ∈ t.violations.drop s.violations.length, ∀ a, r.violation ≠ .peekRange a) ∧
    (s.ports .pop).read = some (s.rd.idx, .popData) ∧
    (∀ d, (s.ports (.pushpop d)).read = some (s.rd.idx, .popData))

/-- R70: a peek consults no cursor and changes no cursor, flag or `pop_data`; after CLEAR or RESET every slot peeks as 0x00. Out
of range, the second clause is the model's choice of equal draws at equal draw counts (log 4). -/
def Obligations.PeeksNeverConsultTheCursors : Prop :=
  (∀ (a : Nat) (s t : State), exec (.peek a) s = .next t →
    t.wr = s.wr ∧ t.rd = s.rd ∧ t.empty = s.empty ∧ t.full = s.full ∧ t.popData = s.popData) ∧
  (∀ (a : Nat) (s u t v : State), s.config = u.config → s.storage = u.storage → s.draws = u.draws →
    exec (.peek a) s = .next t → exec (.peek a) u = .next v → t.peekData = v.peekData) ∧
  (∀ (a : Nat) (d : Byte) (s t u : State), exec (.peekpush a d) s = .next t → exec (.push d) s = .next u →
    t.wr = u.wr ∧ t.rd = u.rd ∧ t.empty = u.empty ∧ t.full = u.full ∧ t.popData = u.popData) ∧
  (∀ (a : Nat) (i : Instr) (s t u : State), i = .clear ∨ i = .reset → exec i s = .next t → a < s.cap →
    exec (.peek a) t = .next u → u.peekData = 0x00)

/-! ## Frames -/

/-- R57, R63, R66, R27, R70: NOP, POP and PEEK store nothing: every slot reads as before, and every register is unchanged but
those of the command: POP writes `pop_data` and the read cursor, PEEK `peek_data` (and, out of range, the draw count). -/
def Obligations.RegisterCommandsFrame : Prop :=
  ∀ (i : Instr) (s t : State), i = .nop ∨ i = .pop ∨ (∃ a, i = .peek a) → exec i s = .next t →
    (∀ x, Memory.read t.storage x = Memory.read s.storage x) ∧
    t.config = s.config ∧ t.wr = s.wr ∧ t.resetSeen = s.resetSeen ∧ t.edge = s.edge ∧ t.inputs = s.inputs ∧
    (i ≠ .pop → t.rd = s.rd ∧ t.popData = s.popData ∧ t.empty = s.empty ∧ t.full = s.full) ∧
    (peekIndex? i = none → t.peekData = s.peekData ∧ t.draws = s.draws) ∧
    s.violations <+: t.violations

/-- R19, R29, R61, R65, R68: PUSH, PUSHPOP and PEEKPUSH store one byte, at the slot `State.pushSlot` gives for the state before
the edge; every other slot reads as before, and every register is unchanged but the write cursor and those of the command's
pop or peek. -/
def Obligations.StoringCommandsFrame : Prop :=
  ∀ (i : Instr) (d : Byte) (s t : State), i = .push d ∨ i = .pushpop d ∨ (∃ a, i = .peekpush a d) →
    exec i s = .next t →
    (∀ a, s.pushSlot = a → ∀ x, x ≠ a → Memory.read t.storage x = Memory.read s.storage x) ∧
    (s.Inv → Memory.read t.storage s.pushSlot = d) ∧
    t.config = s.config ∧ t.resetSeen = s.resetSeen ∧ t.edge = s.edge ∧ t.inputs = s.inputs ∧
    (includesPop i = false → t.rd = s.rd ∧ t.popData = s.popData) ∧
    (peekIndex? i = none → t.peekData = s.peekData ∧ t.draws = s.draws) ∧
    s.violations <+: t.violations

/-- R55, R56, R90: RESET and CLEAR write the array, the cursors and (RESET) the output registers, and nothing else. -/
def Obligations.ClearingCommandsFrame : Prop :=
  ∀ (i : Instr) (s t : State), i = .reset ∨ i = .clear → exec i s = .next t →
    t.config = s.config ∧ t.edge = s.edge ∧ t.inputs = s.inputs ∧ t.draws = s.draws ∧ s.violations <+: t.violations ∧
    (i = .clear → t.popData = s.popData ∧ t.peekData = s.peekData ∧ t.resetSeen = s.resetSeen) ∧
    (i = .reset → t.violations = s.violations)

/-! ## Rules of the whole machine -/

/-- R20: `pop_data` holds the byte of the last effective pop and `peek_data` that of the last effective peek: an edge without
one keeps the register, RESET zeroes both, and CLEAR keeps both. -/
def Obligations.OutputRegistersHoldTheLastRead : Prop :=
  ∀ (i : Instr) (s u t : State), s.fetch = .ok (i, u) → step s = .next t →
    (i = .reset → t.popData = 0x00 ∧ t.peekData = 0x00) ∧
    (i = .clear → t.popData = s.popData ∧ t.peekData = s.peekData) ∧
    (includesPop i = true → t.popData = Memory.read s.storage s.rd.idx) ∧
    (includesPop i = false → i ≠ .reset → t.popData = s.popData) ∧
    (∀ a, peekIndex? i = some a → a < s.cap → t.peekData = Memory.read s.storage a) ∧
    (peekIndex? i = none → i ≠ .reset → t.peekData = s.peekData)

/-- R15: a lap bit toggles exactly when its cursor wraps from `CAP - 1` to 0, is cleared by CLEAR and RESET, and changes at no
other edge. -/
def Obligations.LapBitsToggleOnlyOnWrap : Prop :=
  ∀ (i : Instr) (s u t : State), s.CursorsInRange → s.fetch = .ok (i, u) → step s = .next t →
    (restarts i = true → t.wr.lap = false ∧ t.rd.lap = false) ∧
    (restarts i = false →
      (t.wr.lap ≠ s.wr.lap ↔ pushedBytes i ≠ [] ∧ s.wr.idx = s.cap - 1 ∧ t.wr.idx = 0) ∧
      (t.rd.lap ≠ s.rd.lap ↔ includesPop i = true ∧ s.rd.idx = s.cap - 1 ∧ t.rd.idx = 0))

/-- R19, R27: a slot changes at an edge only by a push to it, or by CLEAR or RESET, which leave every slot 0x00. -/
def Obligations.SlotsChangeOnlyByAPushToThem : Prop :=
  ∀ (i : Instr) (s u t : State) (a : Nat), s.Inv → s.fetch = .ok (i, u) → step s = .next t →
    (restarts i = true → Memory.read t.storage a = 0x00) ∧
    (restarts i = false → Memory.read t.storage a ≠ Memory.read s.storage a →
      a = s.wr.idx ∧ pushedBytes i = [Memory.read t.storage a])

/-- R21, R22: the flags are comparisons of the cursors, and in a state of the block `full` is `occ = CAP`, `empty and not full`
is `occ = 0`, and differing indices give neither flag. -/
def Obligations.FlagsNameTheOccupancy : Prop :=
  ∀ s : State, s.CursorsInRange →
    (s.empty = true ↔ s.wr.idx = s.rd.idx) ∧
    (s.full = true ↔ s.wr.idx = s.rd.idx ∧ s.wr.lap ≠ s.rd.lap) ∧
    (s.full = true → s.empty = true) ∧
    (s.full = true ↔ s.occ = s.cap) ∧
    (s.empty = true ∧ s.full = false ↔ s.occ = 0) ∧
    (s.empty = true ↔ s.occ = 0 ∨ s.occ = s.cap) ∧
    s.occ < 2 * s.cap

/-- R74, R76: which violations an edge records: their codes, their causes on the state before the edge, their information, in
code order; before the first RESET only NO_RESET; none at a RESET. -/
def Obligations.ViolationsAreRaisedByCause : Prop :=
  (∀ (i : Instr) (s t : State), s.CursorsInRange → exec i s = .next t →
    t.violations = s.violations ++
      ((if i = .reset then []
        else if s.resetSeen = false then [Violation.noReset i.command]
        else
          (if pushedBytes i ≠ [] ∧ includesPop i = false ∧ s.full = true
            then [Violation.overflow s.wr.idx (Memory.read s.storage s.wr.idx)] else []) ++
          (if includesPop i = true ∧ s.occ = 0 then [Violation.underflow s.rd.idx] else []) ++
          (match peekIndex? i with
            | some a => if s.cap ≤ a then [Violation.peekRange a] else []
            | none   => [])).map fun v => ⟨s.edge, v⟩)) ∧
  (∀ (slot addr : Nat) (lost : Byte) (cmd : Command),
    (Violation.overflow slot lost).code = 1 ∧ (Violation.underflow slot).code = 2 ∧
    (Violation.peekRange addr).code = 3 ∧ (Violation.noReset cmd).code = 4)

/-- R72, R77: the violation log, the edge number and the power-up period change no hardware: states that agree on the hardware
(and on the next draw) agree on it after any command. That equal draw counts give equal draws is the model's
choice (log 4). -/
def Obligations.ViolationsChangeNoHardware : Prop :=
  ∀ (i : Instr) (s u t : State), s.hw = u.hw → s.draws = u.draws → exec i s = .next t →
    ∃ v, exec i u = .next v ∧ v.hw = t.hw ∧ v.outputs = t.outputs ∧ v.draws = t.draws

/-- R75: the log starts empty at power-up, every record added carries the number of the edge that added it, and no run of any
length clears or shortens it. -/
def Obligations.ViolationLogOnlyGrows : Prop :=
  (∀ (c : Config) (d : PowerUp), (State.powerUp c d).violations = []) ∧
  (∀ (k : Nat) (s t : State), Sys2Proof.core.run k s = .next t →
    t.edge = s.edge + k ∧
    ∃ added : List Record, t.violations = s.violations ++ added ∧ ∀ r ∈ added, s.edge < r.edge ∧ r.edge ≤ t.edge)

/-- R84, R74: an edge records nothing exactly when the controller, the consumer and the producer keep their duties and a peek
names a slot; whatever they do the command completes. -/
def Obligations.DutiesDecideTheLog : Prop :=
  ∀ (i : Instr) (s : State), s.CursorsInRange →
    ∃ t, exec i s = .next t ∧
      (t.violations = s.violations ↔
        ControllerDuty s i ∧ ConsumerDuty s i ∧ ProducerDuty s i ∧ PeekInRange s i)

/-- R31: at one edge a read sees the byte stored before it, also at the slot the push writes, and the slot holds the pushed
byte after it. -/
def Obligations.ReadBeforeWrite : Prop :=
  (∀ (d : Byte) (s t : State), s.Inv → exec (.pushpop d) s = .next t →
    t.popData = Memory.read s.storage s.rd.idx ∧ Memory.read t.storage s.wr.idx = d) ∧
  (∀ (a : Nat) (d : Byte) (s t : State), s.Inv → a < s.cap → exec (.peekpush a d) s = .next t →
    t.peekData = Memory.read s.storage a ∧ Memory.read t.storage s.wr.idx = d)

/-- R40, R92, R93: no byte is forwarded within an edge (what a pop or peek returns does not depend on the byte pushed with it),
and a byte pushed into a block that holds none is what a pop at the next edge returns. For a PEEKPUSH out
of range, whose byte R67 leaves open, the first clause is the model's choice of equal draws at equal draw counts (log 4). -/
def Obligations.PushedByteIsReadableNextEdge : Prop :=
  (∀ (a : Nat) (d e : Byte) (s t u : State),
    (exec (.pushpop d) s = .next t → exec (.pushpop e) s = .next u → t.popData = u.popData) ∧
    (exec (.peekpush a d) s = .next t → exec (.peekpush a e) s = .next u → t.peekData = u.peekData)) ∧
  (∀ (d : Byte) (s t u : State), s.Inv → s.occ = 0 → exec (.push d) s = .next t → exec .pop t = .next u → u.popData = d)

/-- R10, R28, R36: the array: a slot written reads as the byte written and every other slot as before; a write to a slot keeps
the canonical form; and canonical arrays that read the same are equal. -/
def Obligations.ArrayReadAfterWrite : Prop :=
  (∀ (cap : Nat) (m : Memory) (a x : Nat) (v : Byte), Memory.wf cap m → a < cap →
    Memory.read (Memory.write m a v) x = (if x = a then v else Memory.read m x) ∧ Memory.wf cap (Memory.write m a v)) ∧
  (∀ (cap : Nat) (m n : Memory), Memory.wf cap m → Memory.wf cap n →
    (∀ a, a < cap → Memory.read m a = Memory.read n a) → m = n)

/-! ## Invariants and headline results -/

/-- R18, R19, R55, R88: the invariant holds after reset and at power-up, for every capacity and whatever is drawn. -/
def Obligations.InvariantHoldsInitially : Prop :=
  State.reset.Inv ∧ (∀ c : Config, (State.resetWith c).Inv) ∧ (∀ (c : Config) (d : PowerUp), (State.powerUp c d).Inv)

/-- R18: after every edge, whatever the inputs, both cursors are in [0, CAP) (violations included), and the array keeps its
canonical form of `CAP` slots: every step keeps it, and so does every run from power-up. -/
def Obligations.EveryStepKeepsTheInvariant : Prop :=
  (∀ s t : State, s.Inv → step s = .next t → t.Inv) ∧
  (∀ (c : Config) (d : PowerUp) (k : Nat) (xs : List Sample) (t : State),
    Sys2Proof.core.run k { State.powerUp c d with inputs := xs } = .next t → t.Inv)

/-- R71, R96: the block never halts: from a state of the block no step faults, and a run takes an edge for every sample
presented that decodes. -/
def Obligations.NoEdgeEverStops : Prop :=
  (∀ (s : State) (f : Fault), s.Inv → step s ≠ .fault f) ∧
  (∀ (k : Nat) (s : State), s.Inv → k ≤ s.inputs.length → (∀ x ∈ s.inputs, ∃ i, decode s.config x = .ok i) →
    ∃ t, Sys2Proof.core.run k s = .next t ∧ t.Inv)

/-- R29 to R33: every command's effect on the array and on the output registers is what the array does with the port values of
R33: one write, one read of the old byte, or a clear; a register that captures nothing keeps its byte, except that RESET
zeroes it and an out-of-range peek gives `peek_data` a free byte (log 4), the array capturing nothing then (log 13). -/
def Obligations.CommandsRefineTheArrayPorts : Prop :=
  ∀ (i : Instr) (s t : State), exec i s = .next t →
    t.storage = (s.ports i).memoryAfter s.storage ∧
    (∀ r b, (s.ports i).captured s.cap s.storage = some (r, b) → t.outReg r = b) ∧
    (∀ r, (∀ b, (s.ports i).captured s.cap s.storage ≠ some (r, b)) →
      t.outReg r =
        if i = .reset then 0x00
        else if r = .peekData ∧ (∃ a, peekIndex? i = some a ∧ s.cap ≤ a) then Config.peekOobValue s.draws
        else s.outReg r)

/-- R60 item 3, one edge: while nothing is recorded, the slots from the read cursor are a queue of bytes: a command does to it
what the queue of its name does, a pop returns its oldest byte, and it never holds more than `CAP`. -/
def Obligations.BlockRefinesAQueue : Prop :=
  ∀ (i : Instr) (s t : State), s.Inv → s.occ ≤ s.cap → exec i s = .next t → t.violations = s.violations →
    t.contents = queueAfter i s.contents ∧ t.contents.length = t.occ ∧ t.occ ≤ t.cap ∧
    (includesPop i = true → s.contents.head? = some t.popData)

/-- R60, the FIFO law: over any number of edges without RESET or CLEAR in which nothing is recorded, the bytes held at first
followed by the bytes pushed are the bytes popped followed by the bytes held at last, and the occupancy counts them. -/
def Obligations.FifoOrder : Prop :=
  ∀ (k : Nat) (s : State) (r : Trace), s.Inv → s.occ ≤ s.cap → queueRun k s = some r →
    r.final.violations = s.violations →
    s.contents ++ r.pushed = r.popped ++ r.final.contents ∧
    r.final.occ ≤ r.final.cap ∧ r.final.contents.length = r.final.occ ∧
    r.final.occ + r.popped.length = s.occ + r.pushed.length

/-! ## Listings -/

/-- R54: the expansion of every pseudo-command, for every capacity; DELETE is refused. -/
def Obligations.PseudoCommandsExpand : Prop :=
  ∀ c : Config,
    Pseudo.expand c .first = .ok [.edge (.peek 0)] ∧
    Pseudo.expand c .last = .ok [.edge (.peek (c.cap - 1))] ∧
    (∀ a, a < 2 ^ c.width → Pseudo.expand c (.atSlot a) = .ok [.edge (.peek a)]) ∧
    Pseudo.expand c .get = .ok [.edge .pop] ∧
    (∀ s : State, ∃ e, Pseudo.expand c .isEmpty = .ok [e] ∧ e.shown s = some s.empty ∧ commandsOf [e] = []) ∧
    (∀ s : State, ∃ e, Pseudo.expand c .isFull = .ok [e] ∧ e.shown s = some s.full ∧ commandsOf [e] = []) ∧
    (∀ k, assemble c [.pseudo (.construct k)] = .ok ({ reqCapacity := k }, [.edge .reset]) ∧
      assemble c [.pseudo (.construct k)] = assemble c [.capDirective k, .command .reset]) ∧
    Pseudo.expand c .delete = .error .deleteRefused

/-- R53: a literal outside its range is refused: a byte above 255, an index of more than `W` bits; and one inside it is not. -/
def Obligations.ListingLiteralsAreRangeChecked : Prop :=
  (∀ n, 256 ≤ n → byteLiteral n = .error .outOfRange) ∧
  (∀ n, n < 256 → ∃ d, byteLiteral n = .ok d ∧ d.toNat = n) ∧
  (∀ (c : Config) (a : Nat) (d : Byte), 2 ^ c.width ≤ a →
    Line.items c (.command (.peek a)) = .error .outOfRange ∧
    Line.items c (.command (.peekpush a d)) = .error .outOfRange) ∧
  (∀ (c : Config) (i : Instr), i.wellFormed c = true → Line.items c (.command i) = .ok [.edge i])

/-! ## Don't-care pins -/

/-- R48, with R46, R55, R56, R63 and R65: a sample decodes to a command exactly when its used pins are known and show the
command: the control pins under the mask of the command's row show its pattern, and each bus the command uses is known. No
other pin is looked at. X and Z on an unused bus change nothing by R46; that X and Z on a request the row leaves open change
nothing either is the model's reading of R52 with 92_eei_decisions.md D24 (DEDUCED, log 3). -/
def Obligations.CommandsDecodeByTheirTableRow : Prop :=
  ∀ (c : Config) (x : Sample) (k : Command),
    (∃ i, decode c x = .ok i ∧ i.command = k) ↔
      ∃ r ∈ commandTable, r.command = k ∧ Presents c x r.pattern r.mask ∧
        (usesPushData k → ∃ n, busValue x.producer.pushData = some n) ∧
        (usesPeekAddr k → ∃ n, busValue x.consumer.peekAddr = some n)
end

