-- ==== Sys2Proof/Laws/Cursor.lean ====
section
/-! SUPPORT. The capacity and the index width, cursor advance and its laws, and how the occupancy moves (R3, R5, R16,
R17, R59, R60). -/

namespace Sys2Proof

/-! ## Capacity and width -/

theorem Config.cap_pos (c : Config) : 0 < c.cap := by
  unfold Config.cap; split <;> omega

theorem le_two_pow_clog2 (n : Nat) : n ≤ 2 ^ clog2 n := by
  unfold clog2
  split
  next h => simpa using h
  next h =>
    have := @Nat.lt_log2_self (n - 1)
    omega

theorem clog2_le {n k : Nat} (h : n ≤ 2 ^ k) : clog2 n ≤ k := by
  unfold clog2
  split
  next => exact Nat.zero_le k
  next h1 =>
    have hlt : n - 1 < 2 ^ k := by omega
    have := (Nat.log2_lt (by omega)).mpr hlt
    omega

theorem Config.cap_le_two_pow_width (c : Config) : c.cap ≤ 2 ^ c.width :=
  Nat.le_trans (le_two_pow_clog2 c.cap) (Nat.pow_le_pow_right (by omega) (Nat.le_max_right 1 _))

theorem indexFits_of_lt_cap {c : Config} {a : Nat} (h : a < c.cap) : indexFits c a = true := by
  have := c.cap_le_two_pow_width
  simp [indexFits]; omega

namespace Machine

theorem State.cap_pos (s : State) : 0 < s.cap := s.config.cap_pos

/-! ## Cursor advance -/

theorem Cursor.adv_of_last {cap : Nat} {c : Cursor} (h : c.idx = cap - 1) :
    c.adv cap = { idx := 0, lap := !c.lap } := by
  simp [Cursor.adv, h]

theorem Cursor.adv_of_ne {cap : Nat} {c : Cursor} (h : c.idx ≠ cap - 1) :
    c.adv cap = { idx := c.idx + 1, lap := c.lap } := by
  simp [Cursor.adv, h]

theorem Cursor.adv_idx {cap : Nat} {c : Cursor} (h : c.idx < cap) : (c.adv cap).idx = (c.idx + 1) % cap := by
  by_cases hl : c.idx = cap - 1
  · rw [Cursor.adv_of_last hl, show c.idx + 1 = cap by omega, Nat.mod_self]
  · rw [Cursor.adv_of_ne hl, Nat.mod_eq_of_lt (by omega)]

theorem Cursor.adv_lt {cap : Nat} {c : Cursor} (h : c.idx < cap) : (c.adv cap).idx < cap := by
  rw [Cursor.adv_idx h]; exact Nat.mod_lt _ (by omega)

theorem Cursor.ext_lt {cap : Nat} {c : Cursor} (h : c.idx < cap) : c.ext cap < 2 * cap := by
  cases hl : c.lap <;> simp [Cursor.ext, hl] <;> omega

/-- Advancing a cursor adds 1 to its extended pointer modulo `2*CAP` (R16). -/
theorem Cursor.adv_ext {cap : Nat} {c : Cursor} (h : c.idx < cap) :
    (c.adv cap).ext cap = (c.ext cap + 1) % (2 * cap) := by
  by_cases hl : c.idx = cap - 1
  · rw [Cursor.adv_of_last hl]
    cases hb : c.lap
    · rw [Nat.mod_eq_of_lt (by simp [Cursor.ext, hb]; omega)]
      simp [Cursor.ext, hb]; omega
    · rw [show c.ext cap + 1 = 2 * cap by simp [Cursor.ext, hb]; omega, Nat.mod_self]
      simp [Cursor.ext]
  · rw [Cursor.adv_of_ne hl, Nat.mod_eq_of_lt (by cases hb : c.lap <;> simp [Cursor.ext, hb] <;> omega)]
    simp [Cursor.ext]; omega

/-! ## Occupancy -/

/-- The distance from `r` to `w` on a ring of `n` places. -/
def ringDistance (n w r : Nat) : Nat := (w + (n - r)) % n

theorem State.occ_eq_ringDistance (s : State) : s.occ = ringDistance (2 * s.cap) s.wrExt s.rdExt := rfl

/-- Cases of the distance, without a modulus. -/
theorem ringDistance_cases {n w r : Nat} (hw : w < n) (hr : r < n) :
    (r ≤ w ∧ ringDistance n w r = w - r) ∨ (w < r ∧ ringDistance n w r = w + n - r) := by
  unfold ringDistance
  by_cases h : r ≤ w
  · left
    refine ⟨h, ?_⟩
    rw [show w + (n - r) = (w - r) + n by omega, Nat.add_mod_right, Nat.mod_eq_of_lt (by omega)]
  · right
    exact ⟨by omega, by rw [Nat.mod_eq_of_lt (by omega)]; omega⟩

/-- Cases of a successor on the ring, without a modulus. -/
theorem ringSucc_cases {n w : Nat} (hw : w < n) :
    (w + 1 < n ∧ (w + 1) % n = w + 1) ∨ (w + 1 = n ∧ (w + 1) % n = 0) := by
  by_cases h : w + 1 < n
  · exact .inl ⟨h, Nat.mod_eq_of_lt h⟩
  · exact .inr ⟨by omega, by rw [show w + 1 = n by omega, Nat.mod_self]⟩

/-- A push moves the distance up by one. -/
theorem ringDistance_succ_left {n w r : Nat} (hw : w < n) (hr : r < n) :
    ringDistance n ((w + 1) % n) r = (ringDistance n w r + 1) % n := by
  have hw' : (w + 1) % n < n := Nat.mod_lt _ (by omega)
  rcases ringDistance_cases hw hr with ⟨h1, e1⟩ | ⟨h1, e1⟩ <;>
  rcases ringSucc_cases hw with ⟨h2, e2⟩ | ⟨h2, e2⟩ <;>
  rcases ringDistance_cases hw' hr with ⟨h3, e3⟩ | ⟨h3, e3⟩ <;>
  rcases ringSucc_cases (n := n) (w := ringDistance n w r) (by omega) with ⟨h4, e4⟩ | ⟨h4, e4⟩ <;>
  rw [e3, e4] <;> omega

/-- A pop moves the distance down by one. -/
theorem ringDistance_succ_right {n w r : Nat} (hw : w < n) (hr : r < n) :
    ringDistance n w ((r + 1) % n) = (ringDistance n w r + (n - 1)) % n := by
  have hr' : (r + 1) % n < n := Nat.mod_lt _ (by omega)
  have hd : ringDistance n w r < n := Nat.mod_lt _ (by omega)
  have hm : (ringDistance n w r + (n - 1)) % n
      = if ringDistance n w r = 0 then n - 1 else ringDistance n w r - 1 := by
    split
    next h => rw [h, Nat.zero_add, Nat.mod_eq_of_lt (by omega)]
    next h =>
      rw [show ringDistance n w r + (n - 1) = (ringDistance n w r - 1) + n by omega, Nat.add_mod_right,
        Nat.mod_eq_of_lt (by omega)]
  rw [hm]
  rcases ringDistance_cases hw hr with ⟨h1, e1⟩ | ⟨h1, e1⟩ <;>
  rcases ringSucc_cases hr with ⟨h2, e2⟩ | ⟨h2, e2⟩ <;>
  rcases ringDistance_cases hw hr' with ⟨h3, e3⟩ | ⟨h3, e3⟩ <;>
  rw [e3, e1] <;> split <;> omega

theorem State.occ_lt {s : State} : s.occ < 2 * s.cap :=
  Nat.mod_lt _ (by have := s.cap_pos; omega)

/-- The four meetings of the cursors: the occupancy as a distance of indices (R17, R22). -/
theorem State.occ_cases {s : State} (hw : s.wr.idx < s.cap) (hr : s.rd.idx < s.cap) :
    (s.wr.lap = s.rd.lap ∧ s.rd.idx ≤ s.wr.idx ∧ s.occ = s.wr.idx - s.rd.idx) ∨
    (s.wr.lap = s.rd.lap ∧ s.wr.idx < s.rd.idx ∧ s.occ = 2 * s.cap + s.wr.idx - s.rd.idx) ∨
    (s.wr.lap ≠ s.rd.lap ∧ s.occ = s.cap + s.wr.idx - s.rd.idx) := by
  have := ringDistance_cases (Cursor.ext_lt hw) (Cursor.ext_lt hr)
  rw [State.occ_eq_ringDistance]
  unfold State.wrExt State.rdExt
  revert this
  cases hb : s.wr.lap <;> cases hc : s.rd.lap <;> simp [Cursor.ext, hb, hc] <;> omega

/-- `full` is occupancy `CAP` (R22). -/
theorem State.full_iff_occ {s : State} (hw : s.wr.idx < s.cap) (hr : s.rd.idx < s.cap) :
    s.full = true ↔ s.occ = s.cap := by
  have := s.cap_pos
  rcases State.occ_cases hw hr with ⟨h1, h2, h3⟩ | ⟨h1, h2, h3⟩ | ⟨h1, h3⟩ <;>
    simp [State.full, h1, h3] <;> omega

/-- `empty = 1 and full = 0` is occupancy 0 (R22). -/
theorem State.noByte_iff_occ {s : State} (hw : s.wr.idx < s.cap) (hr : s.rd.idx < s.cap) :
    (s.empty = true ∧ s.full = false) ↔ s.occ = 0 := by
  have := s.cap_pos
  rcases State.occ_cases hw hr with ⟨h1, h2, h3⟩ | ⟨h1, h2, h3⟩ | ⟨h1, h3⟩ <;>
    simp [State.full, State.empty, h1, h3] <;> omega

/-- The write cursor stands `occ` places after the read cursor. -/
theorem State.rd_add_occ_mod {s : State} (hw : s.wr.idx < s.cap) (hr : s.rd.idx < s.cap) :
    (s.rd.idx + s.occ) % s.cap = s.wr.idx := by
  rcases State.occ_cases hw hr with ⟨h1, h2, h3⟩ | ⟨h1, h2, h3⟩ | ⟨h1, h3⟩ <;> rw [h3]
  · rw [show s.rd.idx + (s.wr.idx - s.rd.idx) = s.wr.idx by omega, Nat.mod_eq_of_lt hw]
  · rw [show s.rd.idx + (2 * s.cap + s.wr.idx - s.rd.idx) = s.wr.idx + s.cap * 2 by omega,
      Nat.add_mul_mod_self_left, Nat.mod_eq_of_lt hw]
  · rw [show s.rd.idx + (s.cap + s.wr.idx - s.rd.idx) = s.wr.idx + s.cap by omega, Nat.add_mod_right,
      Nat.mod_eq_of_lt hw]

/-- How the occupancy of a state is read off when its cursors are known. -/
theorem State.occ_of_cursors {s t : State} (hc : t.config = s.config) (hw : s.wr.idx < s.cap) (hr : s.rd.idx < s.cap) :
    (t.wr = s.wr.adv s.cap → t.rd = s.rd → t.occ = (s.occ + 1) % (2 * s.cap)) ∧
    (t.wr = s.wr → t.rd = s.rd.adv s.cap → t.occ = (s.occ + (2 * s.cap - 1)) % (2 * s.cap)) ∧
    (t.wr = s.wr.adv s.cap → t.rd = s.rd.adv s.cap → t.occ = s.occ) := by
  have hcap : t.cap = s.cap := by simp [State.cap, hc]
  have hw' := Cursor.ext_lt hw
  have hr' := Cursor.ext_lt hr
  have hd : s.occ < 2 * s.cap := State.occ_lt
  refine ⟨fun h1 h2 => ?_, fun h1 h2 => ?_, fun h1 h2 => ?_⟩ <;>
    simp only [State.occ_eq_ringDistance, State.wrExt, State.rdExt, h1, h2, hcap, Cursor.adv_ext hw, Cursor.adv_ext hr] at *
  · exact ringDistance_succ_left hw' hr'
  · exact ringDistance_succ_right hw' hr'
  · rw [ringDistance_succ_left hw' (Nat.mod_lt _ (by omega)), ringDistance_succ_right hw' hr',
      Nat.mod_add_mod, show ringDistance (2 * s.cap) (s.wr.ext s.cap) (s.rd.ext s.cap) + (2 * s.cap - 1) + 1
        = ringDistance (2 * s.cap) (s.wr.ext s.cap) (s.rd.ext s.cap) + 2 * s.cap by omega,
      Nat.add_mod_right, Nat.mod_eq_of_lt hd]

end Machine
end Sys2Proof
end

