-- ==== Sys2Proof/Laws/Decode.lean ====
section
/-! SUPPORT. Pins and buses carry the values driven onto them, and what `decode` answers, said once (R45 to R52). -/

namespace Sys2Proof

@[simp] theorem Level.bit?_ofBit (b : Bool) : (Level.ofBit b).bit? = some b := by cases b <;> rfl

@[simp] theorem Level.sampleIf_ofBit (used b : Bool) (p : Pin) : (Level.ofBit b).sampleIf used p = .ok b := by
  simp [Level.sampleIf]

@[simp] theorem busLevels_length (width n : Nat) : (busLevels width n).length = width := by
  induction width generalizing n with
  | zero => rfl
  | succ w ih => simp [busLevels, ih]

/-- A bus carries the low bits of the value driven onto it. -/
theorem busValue_busLevels (width n : Nat) : busValue (busLevels width n) = some (n % 2 ^ width) := by
  induction width generalizing n with
  | zero => simp [busLevels, busValue, Nat.mod_one]
  | succ w ih =>
    simp only [busLevels, busValue, Level.bit?_ofBit, ih]
    have hp : n % 2 ^ (w + 1) = n % 2 + 2 * (n / 2 % 2 ^ w) := by
      rw [Nat.pow_succ, Nat.mul_comm, Nat.mod_mul]
    rw [hp]
    rcases Nat.mod_two_eq_zero_or_one n with h | h <;> simp [h]

theorem sampleBus_busLevels (width n : Nat) (p : Pin) : sampleBus (busLevels width n) p = .ok (n % 2 ^ width) := by
  simp [sampleBus, busValue_busLevels]

/-- The value of a known bus fits its width. -/
theorem busValue_lt {ls : List Level} {n : Nat} (h : busValue ls = some n) : n < 2 ^ ls.length := by
  induction ls generalizing n with
  | nil => simp [busValue] at h; simp [← h]
  | cons l ls ih =>
    simp only [busValue] at h
    split at h
    next b m _ hm =>
      have := ih hm
      simp only [Option.some.injEq] at h
      simp only [List.length_cons, Nat.pow_succ]
      cases b <;> simp at h <;> omega
    next => simp at h

theorem sampleBus_ok {ls : List Level} {n : Nat} {p : Pin} : sampleBus ls p = .ok n ↔ busValue ls = some n := by
  unfold sampleBus; split <;> simp_all

/-! ## The fields of a command word -/

theorem commandWord_lt (c : Config) (ctrl : BitVec 5) (d : Byte) {a : Nat} (h : a < 2 ^ c.width) :
    commandWord c ctrl d a < 2 ^ c.wordWidth := by
  have h1 := ctrl.isLt
  have h2 := d.isLt
  have : ctrl.toNat * 2 ^ 8 + d.toNat + 1 ≤ 2 ^ 13 := by omega
  have := Nat.mul_le_mul_right (2 ^ c.width) this
  unfold commandWord Config.wordWidth
  rw [Nat.pow_add]
  rw [Nat.add_mul, Nat.one_mul] at this
  omega

theorem commandWord_addr (c : Config) (ctrl : BitVec 5) (d : Byte) {a : Nat} (h : a < 2 ^ c.width) :
    commandWord c ctrl d a % 2 ^ c.width = a := by
  unfold commandWord
  rw [Nat.mul_add_mod_self_right, Nat.mod_eq_of_lt h]

theorem commandWord_high (c : Config) (ctrl : BitVec 5) (d : Byte) {a : Nat} (h : a < 2 ^ c.width) :
    commandWord c ctrl d a / 2 ^ c.width = ctrl.toNat * 2 ^ 8 + d.toNat := by
  unfold commandWord
  rw [Nat.mul_comm, Nat.mul_add_div (Nat.two_pow_pos _), Nat.div_eq_of_lt h, Nat.add_zero]

theorem commandWord_data (c : Config) (ctrl : BitVec 5) (d : Byte) {a : Nat} (h : a < 2 ^ c.width) :
    commandWord c ctrl d a / 2 ^ c.width % 2 ^ 8 = d.toNat := by
  have := d.isLt
  rw [commandWord_high c ctrl d h]; omega

theorem commandWord_ctrl (c : Config) (ctrl : BitVec 5) (d : Byte) {a k : Nat} (h : a < 2 ^ c.width) :
    (commandWord c ctrl d a).testBit (c.width + 8 + k) = ctrl.getLsbD k := by
  have := d.isLt
  rw [show c.width + 8 + k = k + (8 + c.width) by omega, ← Nat.testBit_div_two_pow, Nat.add_comm 8,
    Nat.pow_add, ← Nat.div_div_eq_div_mul, commandWord_high c ctrl d h,
    show (ctrl.toNat * 2 ^ 8 + d.toNat) / 2 ^ 8 = ctrl.toNat by omega]
  rfl

/-! ## Decoding -/

/-- A control field is made of its own bits (R45). -/
theorem ctrlField_bits (ctrl : BitVec 5) :
    ctrlField (ctrl.getLsbD 4) (ctrl.getLsbD 3) (ctrl.getLsbD 2) (ctrl.getLsbD 1) (ctrl.getLsbD 0) = ctrl := by
  revert ctrl; decide

/-! R47 on the bits of a control field, one lemma for each winner. -/

@[simp] theorem decodeCtrl_rst (clr peek pop push : Bool) : decodeCtrl (ctrlField true clr peek pop push) = .reset := by
  revert clr peek pop push; decide

@[simp] theorem decodeCtrl_clr (peek pop push : Bool) : decodeCtrl (ctrlField false true peek pop push) = .clear := by
  revert peek pop push; decide

@[simp] theorem decodeCtrl_pop (peek push : Bool) :
    decodeCtrl (ctrlField false false peek true push) = if push then .pushpop else .pop := by
  revert peek push; decide

@[simp] theorem decodeCtrl_peek (push : Bool) :
    decodeCtrl (ctrlField false false true false push) = if push then .peekpush else .peek := by
  revert push; decide

@[simp] theorem decodeCtrl_push (push : Bool) :
    decodeCtrl (ctrlField false false false false push) = if push then .push else .nop := by
  revert push; decide

theorem Sample.ctrl_ofWord (c : Config) (ctrl : BitVec 5) (d : Byte) {a : Nat} (h : a < 2 ^ c.width) :
    (Sample.ofWord c (commandWord c ctrl d a)).ctrl = .ok ctrl := by
  simp only [Sample.ctrl, Sample.ofWord, Level.sampleIf_ofBit, commandWord_ctrl c ctrl d h]
  exact congrArg Except.ok (ctrlField_bits ctrl)

theorem Sample.pushByte_ofWord (c : Config) (ctrl : BitVec 5) (d : Byte) {a : Nat} (h : a < 2 ^ c.width) :
    (Sample.ofWord c (commandWord c ctrl d a)).pushByte = .ok d := by
  simp only [Sample.pushByte, Sample.ofWord, sampleBus_busLevels, commandWord_data c ctrl d h]
  exact congrArg Except.ok (BitVec.ofNat_toNat 8 d |>.trans (by simp))

theorem Sample.peekIndex_ofWord (c : Config) (ctrl : BitVec 5) (d : Byte) {a : Nat} (h : a < 2 ^ c.width) :
    (Sample.ofWord c (commandWord c ctrl d a)).peekIndex = .ok a := by
  simp only [Sample.peekIndex, Sample.ofWord, sampleBus_busLevels, commandWord_addr c ctrl d h]

theorem Sample.checkWidths_ok {c : Config} {x : Sample} :
    x.checkWidths c = .ok () ↔ x.producer.pushData.length = 8 ∧ x.consumer.peekAddr.length = c.width := by
  unfold Sample.checkWidths
  split <;> (try split) <;> simp_all

theorem Sample.checkWidths_ofWord (c : Config) (w : Nat) : (Sample.ofWord c w).checkWidths c = .ok () :=
  Sample.checkWidths_ok.mpr ⟨by simp [Sample.ofWord], by simp [Sample.ofWord]⟩

/-! ### Which request pins are looked at -/

theorem Level.known_or (l : Level) : l.bit? = none ∨ l.bit? = some true ∨ l.bit? = some false := by
  cases l <;> simp [Level.bit?]

/-- A known pin reads as its bit, used or not. -/
theorem Level.sampleIf_known {l : Level} {b used : Bool} {p : Pin} (h : l.bit? = some b) : l.sampleIf used p = .ok b := by
  simp [Level.sampleIf, h]

/-- A pin that is not used always reads. -/
theorem Level.sampleIf_unused (l : Level) (p : Pin) : l.sampleIf false p = .ok (l.bit?.getD false) := by
  unfold Level.sampleIf; cases l.bit? <;> rfl

/-- An unknown pin that is used is named. -/
theorem Level.sampleIf_unknown {l : Level} {p : Pin} (h : l.bit? = none) :
    l.sampleIf true p = .error (.unknownInput p) := by
  simp [Level.sampleIf, h]

/-- What the request pins answer, said once: a command with the pins it needs, or the used pin that is unknown. -/
theorem Sample.ctrl_cases (x : Sample) :
    (∃ ctrl, x.ctrl = .ok ctrl ∧
      ((x.controller.rst.bit? = some true ∧ decodeCtrl ctrl = .reset) ∨
       (x.controller.rst.bit? = some false ∧ x.controller.clr.bit? = some true ∧ decodeCtrl ctrl = .clear) ∨
       (x.controller.rst.bit? = some false ∧ x.controller.clr.bit? = some false ∧
         ∃ q p, x.consumer.pop.bit? = some q ∧ x.producer.push.bit? = some p ∧
           ((q = true ∧ decodeCtrl ctrl = if p then .pushpop else .pop) ∨
            (q = false ∧ ∃ k, x.consumer.peek.bit? = some k ∧
              decodeCtrl ctrl = if k then (if p then .peekpush else .peek) else (if p then .push else .nop)))))) ∨
    (∃ p, x.ctrl = .error (.unknownInput p) ∧
      (x.controller.rst.bit? = none ∨
       (x.controller.rst.bit? = some false ∧ x.controller.clr.bit? = none) ∨
       (x.controller.rst.bit? = some false ∧ x.controller.clr.bit? = some false ∧
         (x.consumer.pop.bit? = none ∨ x.producer.push.bit? = none ∨
          (x.consumer.pop.bit? = some false ∧ x.consumer.peek.bit? = none))))) := by
  unfold Sample.ctrl
  rcases Level.known_or x.controller.rst with h0 | h0 | h0
  · simp [Level.sampleIf_unknown, h0, bind, Except.bind]
  · simp [Level.sampleIf_known h0, Level.sampleIf_unused, h0, bind, Except.bind, pure, Except.pure]
  rcases Level.known_or x.controller.clr with h1 | h1 | h1
  · simp [Level.sampleIf_known h0, Level.sampleIf_unknown, h0, h1, bind, Except.bind]
  · simp [Level.sampleIf_known h0, Level.sampleIf_known h1, Level.sampleIf_unused, h0, h1, bind, Except.bind, pure,
      Except.pure]
  rcases Level.known_or x.consumer.pop with h2 | h2 | h2
  · simp [Level.sampleIf_known h0, Level.sampleIf_known h1, Level.sampleIf_unknown, h0, h1, h2, bind, Except.bind]
  · rcases Level.known_or x.producer.push with h3 | h3 | h3
    · simp [Level.sampleIf_known h0, Level.sampleIf_known h1, Level.sampleIf_known h2, Level.sampleIf_unknown, h0, h1, h2,
        h3, bind, Except.bind]
    all_goals
      simp [Level.sampleIf_known h0, Level.sampleIf_known h1, Level.sampleIf_known h2, Level.sampleIf_known h3,
        Level.sampleIf_unused, h0, h1, h2, h3, bind, Except.bind, pure, Except.pure]
  · rcases Level.known_or x.producer.push with h3 | h3 | h3
    · simp [Level.sampleIf_known h0, Level.sampleIf_known h1, Level.sampleIf_known h2, Level.sampleIf_unknown, h0, h1, h2,
        h3, bind, Except.bind]
    all_goals
      rcases Level.known_or x.consumer.peek with h4 | h4 | h4 <;>
        simp [Level.sampleIf_known h0, Level.sampleIf_known h1, Level.sampleIf_known h2, Level.sampleIf_known h3,
          Level.sampleIf_known, Level.sampleIf_unknown, h0, h1, h2, h3, h4, bind, Except.bind, pure, Except.pure]

/-- What `decode` answers, once the buses have their widths and the used control pins are known. -/
theorem decode_of_ctrl {c : Config} {x : Sample} {ctrl : BitVec 5} (hw : x.checkWidths c = .ok ())
    (hc : x.ctrl = .ok ctrl) : decode c x = (decodeCtrl ctrl).withOperands x := by
  unfold decode
  rw [hw, hc]
  rfl

/-- `decode` inverted: an answer comes from known used control pins and known used operands. -/
theorem decode_ok {c : Config} {x : Sample} {i : Instr} (h : decode c x = .ok i) :
    ∃ ctrl, x.checkWidths c = .ok () ∧ x.ctrl = .ok ctrl ∧ (decodeCtrl ctrl).withOperands x = .ok i := by
  unfold decode at h
  cases hw : x.checkWidths c with
  | error e => simp [hw, bind, Except.bind] at h
  | ok u =>
    cases hc : x.ctrl with
    | error e => simp [hw, hc, bind, Except.bind] at h
    | ok ctrl => exact ⟨ctrl, rfl, rfl, by simpa [hw, hc, bind, Except.bind] using h⟩

/-- Each command reads its own operands and names itself. -/
theorem Command.withOperands_command {k : Command} {x : Sample} {i : Instr} (h : k.withOperands x = .ok i) :
    i.command = k := by
  cases k <;> simp only [Command.withOperands] at h
  case push | pushpop =>
    cases hd : x.pushByte <;> simp [hd, bind, Except.bind, pure, Except.pure] at h
    subst h; rfl
  case peek =>
    cases ha : x.peekIndex <;> simp [ha, bind, Except.bind, pure, Except.pure] at h
    subst h; rfl
  case peekpush =>
    cases ha : x.peekIndex <;> cases hd : x.pushByte <;> simp [ha, hd, bind, Except.bind, pure, Except.pure] at h
    subst h; rfl
  all_goals (cases h; rfl)

theorem decodeCtrl_encodeCtrl (k : Command) : decodeCtrl (encodeCtrl k) = k := by cases k <;> rfl

/-- A command read back from pins that carry its operands. -/
theorem Instr.withOperands_self {i : Instr} {x : Sample} (hd : x.pushByte = .ok i.dataField)
    (ha : x.peekIndex = .ok i.addrField) : i.command.withOperands x = .ok i := by
  cases i <;> simp only [Instr.command, Command.withOperands, hd, ha] <;> rfl

/-- `push_data` as it is read, from a known bus (R46). -/
theorem Sample.pushByte_ok {x : Sample} {d : Byte} :
    x.pushByte = .ok d ↔ ∃ n, busValue x.producer.pushData = some n ∧ d = BitVec.ofNat 8 n := by
  unfold Sample.pushByte sampleBus
  cases busValue x.producer.pushData <;> simp [bind, Except.bind, pure, Except.pure, eq_comm]

/-- `peek_addr` as it is read, from a known bus (R46). -/
theorem Sample.peekIndex_ok {x : Sample} {a : Nat} : x.peekIndex = .ok a ↔ busValue x.consumer.peekAddr = some a :=
  sampleBus_ok

theorem Instr.addrField_lt {c : Config} {i : Instr} (h : i.wellFormed c = true) : i.addrField < 2 ^ c.width := by
  cases i <;> simp_all [Instr.wellFormed, indexFits, Instr.addrField]

end Sys2Proof
end

