-- ==== Sys2Proof/Laws/Memory.lean ====
section
/-! SUPPORT. The laws of the storage array: read after write, the canonical form and that every operation keeps it, and
that canonical arrays with the same bytes are the same list. -/

namespace Sys2Proof.Machine

@[simp] theorem Memory.read_nil (a : Nat) : Memory.read [] a = Memory.fill := rfl

@[simp] theorem Memory.read_clearAll (a : Nat) : Memory.read Memory.clearAll a = 0x00#8 := rfl

/-- A cell in front is seen at its own slot, even when it is left out, if nothing below is listed there. -/
theorem Memory.read_cell_other {m : Memory} {a x : Nat} {v : Byte} (h : x ≠ a) :
    Memory.read (Memory.cell a v m) x = Memory.read m x := by
  unfold Memory.cell
  split <;> simp [Memory.read, h]

/-- A slot below every listed one reads as the fill byte. -/
theorem Memory.read_of_below {m : Memory} {a : Nat} (h : ∀ c ∈ m, a < c.1) : Memory.read m a = Memory.fill := by
  induction m with
  | nil => rfl
  | cons c m ih =>
    have hc : a < c.1 := h c (by simp)
    have : a ≠ c.1 := by omega
    simp only [Memory.read, this, if_false]
    exact ih fun d hd => h d (by simp [hd])

theorem Memory.read_cell_same {m : Memory} {a : Nat} {v : Byte} (h : ∀ c ∈ m, a < c.1) :
    Memory.read (Memory.cell a v m) a = v := by
  unfold Memory.cell
  split
  next hv => rw [Memory.read_of_below h, hv]
  next => simp [Memory.read]

/-- A write leaves every other slot alone. -/
theorem Memory.read_write_other {m : Memory} {a x : Nat} {v : Byte} (h : x ≠ a) :
    Memory.read (Memory.write m a v) x = Memory.read m x := by
  induction m with
  | nil => simp [Memory.write, Memory.read_cell_other h]
  | cons c m ih =>
    obtain ⟨a', b⟩ := c
    simp only [Memory.write]
    split
    · exact Memory.read_cell_other h
    · split
      next h1 h2 =>
        rw [Memory.read_cell_other h]
        simp [Memory.read, ← h2, h]
      next => simp only [Memory.read, ih]

/-- What a canonical list says of its head: everything after it is listed at a higher slot. -/
theorem Memory.wf_tail {cap : Nat} {c : Host.Cell} {m : Memory} (h : Memory.wf cap (c :: m)) :
    Memory.wf cap m ∧ (∀ d ∈ m, c.1 < d.1) ∧ c.1 < cap ∧ c.2 ≠ Memory.fill := by
  obtain ⟨hp, hc⟩ := h
  obtain ⟨h1, h2⟩ := List.pairwise_cons.mp hp
  exact ⟨⟨h2, fun d hd => hc d (by simp [hd])⟩, h1, hc c (by simp)⟩

/-- The slot written holds the byte written. -/
theorem Memory.read_write_same {cap : Nat} {m : Memory} {a : Nat} {v : Byte} (h : Memory.wf cap m) :
    Memory.read (Memory.write m a v) a = v := by
  induction m with
  | nil => exact Memory.read_cell_same (by simp)
  | cons c m ih =>
    obtain ⟨a', b⟩ := c
    obtain ⟨hm, hlt, -, -⟩ := Memory.wf_tail h
    simp only [Memory.write]
    split
    next h1 =>
      refine Memory.read_cell_same fun d hd => ?_
      rcases List.mem_cons.mp hd with rfl | hd
      · exact h1
      · have := hlt d hd; simp at this; omega
    next h1 =>
      split
      next h2 => exact Memory.read_cell_same fun d hd => by have := hlt d hd; simp at this; omega
      next h2 => simp only [Memory.read, h2, if_false]; exact ih hm

/-- Read after write, both ways. -/
theorem Memory.read_write {cap : Nat} {m : Memory} {a x : Nat} {v : Byte} (h : Memory.wf cap m) :
    Memory.read (Memory.write m a v) x = if x = a then v else Memory.read m x := by
  split
  next hx => rw [hx]; exact Memory.read_write_same h
  next hx => exact Memory.read_write_other hx

@[simp] theorem Memory.wf_nil (cap : Nat) : Memory.wf cap [] := by simp [Memory.wf]

/-- A cell in front of a canonical list, below everything it lists. -/
theorem Memory.wf_cell {cap : Nat} {m : Memory} {a : Nat} {v : Byte} (h : Memory.wf cap m) (ha : a < cap)
    (hlt : ∀ c ∈ m, a < c.1) : Memory.wf cap (Memory.cell a v m) := by
  unfold Memory.cell
  split
  next => exact h
  next hv =>
    refine ⟨List.pairwise_cons.mpr ⟨hlt, h.1⟩, fun c hc => ?_⟩
    rcases List.mem_cons.mp hc with rfl | hc
    · exact ⟨ha, hv⟩
    · exact h.2 c hc

/-- Everything a written list lists, it listed before or is the slot written. -/
theorem Memory.mem_write {m : Memory} {a : Nat} {v : Byte} {c : Host.Cell} (h : c ∈ Memory.write m a v) :
    c ∈ m ∨ c.1 = a := by
  have cell : ∀ {l : Memory}, c ∈ Memory.cell a v l → c ∈ l ∨ c.1 = a := by
    intro l hl
    unfold Memory.cell at hl
    split at hl
    · exact .inl hl
    · rcases List.mem_cons.mp hl with rfl | hl
      · exact .inr rfl
      · exact .inl hl
  induction m with
  | nil => exact (cell h).imp_left (by simp)
  | cons d m ih =>
    obtain ⟨a', b⟩ := d
    simp only [Memory.write] at h
    split at h
    · exact cell h
    · split at h
      · exact (cell h).imp_left fun hc => by simp [hc]
      · rcases List.mem_cons.mp h with rfl | h
        · exact .inl (by simp)
        · exact (ih h).imp_left fun hc => by simp [hc]

/-- A write to a slot of the array keeps the canonical form. -/
theorem Memory.wf_write {cap : Nat} {m : Memory} {a : Nat} {v : Byte} (h : Memory.wf cap m) (ha : a < cap) :
    Memory.wf cap (Memory.write m a v) := by
  induction m with
  | nil => exact Memory.wf_cell (Memory.wf_nil cap) ha (by simp)
  | cons c m ih =>
    obtain ⟨a', b⟩ := c
    obtain ⟨hm, hlt, hc⟩ := Memory.wf_tail h
    simp only [Memory.write]
    split
    next h1 =>
      refine Memory.wf_cell h ha fun d hd => ?_
      rcases List.mem_cons.mp hd with rfl | hd
      · exact h1
      · have := hlt d hd; simp at this; omega
    next h1 =>
      split
      next h2 => exact Memory.wf_cell hm ha fun d hd => by have := hlt d hd; simp at this; omega
      next h2 =>
        have hw := ih hm
        refine ⟨List.pairwise_cons.mpr ⟨fun d hd => ?_, hw.1⟩, fun d hd => ?_⟩
        · rcases Memory.mem_write hd with hd | hd
          · exact hlt d hd
          · simp only [hd]; omega
        · rcases List.mem_cons.mp hd with rfl | hd
          · exact hc
          · exact hw.2 d hd

/-- A listed cell of a canonical list reads as its byte. -/
theorem Memory.read_of_mem {cap : Nat} {m : Memory} {c : Host.Cell} (h : Memory.wf cap m) (hc : c ∈ m) :
    Memory.read m c.1 = c.2 := by
  induction m with
  | nil => simp at hc
  | cons d m ih =>
    obtain ⟨hm, hlt, -, -⟩ := Memory.wf_tail h
    rcases List.mem_cons.mp hc with rfl | hc
    · simp [Memory.read]
    · have := hlt c hc
      have hne : c.1 ≠ d.1 := by omega
      simp only [Memory.read, hne, if_false]
      exact ih hm hc

/-- Equal contents are equal data: two canonical lists that read the same at every slot are one list. -/
theorem Memory.ext_of_read {cap : Nat} {m n : Memory} (hm : Memory.wf cap m) (hn : Memory.wf cap n)
    (h : ∀ a, Memory.read m a = Memory.read n a) : m = n := by
  induction m generalizing n with
  | nil =>
    cases n with
    | nil => rfl
    | cons d n =>
      have := h d.1
      rw [Memory.read_of_mem hn (by simp)] at this
      exact absurd this.symm (Memory.wf_tail hn).2.2.2
  | cons c m ih =>
    cases n with
    | nil =>
      have := h c.1
      rw [Memory.read_of_mem hm (by simp)] at this
      exact absurd this (Memory.wf_tail hm).2.2.2
    | cons d n =>
      obtain ⟨hm', hcm, -, hcf⟩ := Memory.wf_tail hm
      obtain ⟨hn', hdn, -, hdf⟩ := Memory.wf_tail hn
      have hkey : c.1 = d.1 := by
        rcases Nat.lt_trichotomy c.1 d.1 with hlt | heq | hlt
        · have := h c.1
          rw [Memory.read_of_mem hm (by simp), Memory.read_of_below (fun e he => by
            rcases List.mem_cons.mp he with rfl | he
            · exact hlt
            · have := hdn e he; omega)] at this
          exact absurd this hcf
        · exact heq
        · have := h d.1
          rw [Memory.read_of_mem hn (by simp), Memory.read_of_below (fun e he => by
            rcases List.mem_cons.mp he with rfl | he
            · exact hlt
            · have := hcm e he; omega)] at this
          exact absurd this.symm hdf
      have hval : c.2 = d.2 := by
        have := h c.1
        rw [Memory.read_of_mem hm (by simp), hkey, Memory.read_of_mem hn (by simp)] at this
        exact this
      have hcd : c = d := Prod.ext hkey hval
      subst hcd
      congr 1
      refine ih hm' hn' fun a => ?_
      by_cases ha : a = c.1
      · subst ha
        rw [Memory.read_of_below hcm, Memory.read_of_below hdn]
      · have := h a
        simpa [Memory.read, ha] using this

/-- The drawn array, built from the top slot down. -/
theorem Memory.ofSlots_range' (f : Nat → Byte) (n start cap : Nat) (hcap : start + n ≤ cap) :
    let m : Memory := (List.range' start n).foldr (fun i m => Memory.cell i (f i) m) []
    Memory.wf cap m ∧ (∀ c ∈ m, start ≤ c.1) ∧
      (∀ a, Memory.read m a = if start ≤ a ∧ a < start + n then f a else Memory.fill) := by
  induction n generalizing start with
  | zero =>
    refine ⟨Memory.wf_nil cap, by simp, fun a => ?_⟩
    simp
  | succ n ih =>
    obtain ⟨hwf, hge, hread⟩ := ih (start + 1) (by omega)
    simp only [List.range'_succ, List.foldr_cons]
    have hlt : ∀ c ∈ (List.range' (start + 1) n).foldr (fun i m => Memory.cell i (f i) m) ([] : Memory), start < c.1 :=
      fun c hc => by have := hge c hc; omega
    refine ⟨Memory.wf_cell hwf (by omega) hlt, fun c hc => ?_, fun a => ?_⟩
    · unfold Memory.cell at hc
      split at hc
      · have := hlt c hc; omega
      · rcases List.mem_cons.mp hc with rfl | hc
        · exact Nat.le_refl _
        · have := hlt c hc; omega
    · by_cases ha : a = start
      · subst ha
        rw [Memory.read_cell_same hlt]
        simp
      · rw [Memory.read_cell_other ha, hread a]
        by_cases hr : start + 1 ≤ a ∧ a < start + 1 + n
        · rw [if_pos hr, if_pos (by omega)]
        · rw [if_neg hr, if_neg (by omega)]

theorem Memory.wf_ofSlots (cap : Nat) (f : Nat → Byte) : Memory.wf cap (Memory.ofSlots cap f) := by
  have := (Memory.ofSlots_range' f cap 0 cap (by omega)).1
  simpa [Memory.ofSlots, List.range_eq_range'] using this

theorem Memory.read_ofSlots {cap a : Nat} (f : Nat → Byte) (h : a < cap) :
    Memory.read (Memory.ofSlots cap f) a = f a := by
  have := (Memory.ofSlots_range' f cap 0 cap (by omega)).2.2 a
  simpa [Memory.ofSlots, List.range_eq_range', h] using this

end Sys2Proof.Machine
end

