-- ==== Sys2Proof/Laws/State.lean ====
section
/-! SUPPORT. One lemma per field per update of the state, and the flags after an update that does not touch the cursors. -/

namespace Sys2Proof.Machine

variable (s : State)

/-! ### record -/

@[simp] theorem State.record_config (k : Command) (vs : List Violation) : (s.record k vs).config = s.config := rfl
@[simp] theorem State.record_storage (k : Command) (vs : List Violation) : (s.record k vs).storage = s.storage := rfl
@[simp] theorem State.record_wr (k : Command) (vs : List Violation) : (s.record k vs).wr = s.wr := rfl
@[simp] theorem State.record_rd (k : Command) (vs : List Violation) : (s.record k vs).rd = s.rd := rfl
@[simp] theorem State.record_popData (k : Command) (vs : List Violation) : (s.record k vs).popData = s.popData := rfl
@[simp] theorem State.record_peekData (k : Command) (vs : List Violation) : (s.record k vs).peekData = s.peekData := rfl
@[simp] theorem State.record_resetSeen (k : Command) (vs : List Violation) : (s.record k vs).resetSeen = s.resetSeen := rfl
@[simp] theorem State.record_edge (k : Command) (vs : List Violation) : (s.record k vs).edge = s.edge := rfl
@[simp] theorem State.record_violations (k : Command) (vs : List Violation) : (s.record k vs).violations = s.violations ++ s.raised k vs := rfl
@[simp] theorem State.record_draws (k : Command) (vs : List Violation) : (s.record k vs).draws = s.draws := rfl
@[simp] theorem State.record_inputs (k : Command) (vs : List Violation) : (s.record k vs).inputs = s.inputs := rfl
@[simp] theorem State.record_cap (k : Command) (vs : List Violation) : (s.record k vs).cap = s.cap := rfl

/-! ### pushByte -/

@[simp] theorem State.pushByte_config (d : Byte) : (s.pushByte d).config = s.config := rfl
@[simp] theorem State.pushByte_storage (d : Byte) : (s.pushByte d).storage = Memory.write s.storage s.wr.idx d := rfl
@[simp] theorem State.pushByte_wr (d : Byte) : (s.pushByte d).wr = s.wr.adv s.cap := rfl
@[simp] theorem State.pushByte_rd (d : Byte) : (s.pushByte d).rd = s.rd := rfl
@[simp] theorem State.pushByte_popData (d : Byte) : (s.pushByte d).popData = s.popData := rfl
@[simp] theorem State.pushByte_peekData (d : Byte) : (s.pushByte d).peekData = s.peekData := rfl
@[simp] theorem State.pushByte_resetSeen (d : Byte) : (s.pushByte d).resetSeen = s.resetSeen := rfl
@[simp] theorem State.pushByte_edge (d : Byte) : (s.pushByte d).edge = s.edge := rfl
@[simp] theorem State.pushByte_violations (d : Byte) : (s.pushByte d).violations = s.violations := rfl
@[simp] theorem State.pushByte_draws (d : Byte) : (s.pushByte d).draws = s.draws := rfl
@[simp] theorem State.pushByte_inputs (d : Byte) : (s.pushByte d).inputs = s.inputs := rfl
@[simp] theorem State.pushByte_cap (d : Byte) : (s.pushByte d).cap = s.cap := rfl

/-! ### popByte -/

@[simp] theorem State.popByte_config : s.popByte.config = s.config := rfl
@[simp] theorem State.popByte_storage : s.popByte.storage = s.storage := rfl
@[simp] theorem State.popByte_wr : s.popByte.wr = s.wr := rfl
@[simp] theorem State.popByte_rd : s.popByte.rd = s.rd.adv s.cap := rfl
@[simp] theorem State.popByte_popData : s.popByte.popData = Memory.read s.storage s.rd.idx := rfl
@[simp] theorem State.popByte_peekData : s.popByte.peekData = s.peekData := rfl
@[simp] theorem State.popByte_resetSeen : s.popByte.resetSeen = s.resetSeen := rfl
@[simp] theorem State.popByte_edge : s.popByte.edge = s.edge := rfl
@[simp] theorem State.popByte_violations : s.popByte.violations = s.violations := rfl
@[simp] theorem State.popByte_draws : s.popByte.draws = s.draws := rfl
@[simp] theorem State.popByte_inputs : s.popByte.inputs = s.inputs := rfl
@[simp] theorem State.popByte_cap : s.popByte.cap = s.cap := rfl

/-! ### zeroQueue -/

@[simp] theorem State.zeroQueue_config : s.zeroQueue.config = s.config := rfl
@[simp] theorem State.zeroQueue_storage : s.zeroQueue.storage = [] := rfl
@[simp] theorem State.zeroQueue_wr : s.zeroQueue.wr = Cursor.start := rfl
@[simp] theorem State.zeroQueue_rd : s.zeroQueue.rd = Cursor.start := rfl
@[simp] theorem State.zeroQueue_popData : s.zeroQueue.popData = s.popData := rfl
@[simp] theorem State.zeroQueue_peekData : s.zeroQueue.peekData = s.peekData := rfl
@[simp] theorem State.zeroQueue_resetSeen : s.zeroQueue.resetSeen = s.resetSeen := rfl
@[simp] theorem State.zeroQueue_edge : s.zeroQueue.edge = s.edge := rfl
@[simp] theorem State.zeroQueue_violations : s.zeroQueue.violations = s.violations := rfl
@[simp] theorem State.zeroQueue_draws : s.zeroQueue.draws = s.draws := rfl
@[simp] theorem State.zeroQueue_inputs : s.zeroQueue.inputs = s.inputs := rfl
@[simp] theorem State.zeroQueue_cap : s.zeroQueue.cap = s.cap := rfl

/-! ### withNextSample -/

@[simp] theorem State.withNextSample_config (x : Sample) : (s.withNextSample x).config = s.config := rfl
@[simp] theorem State.withNextSample_storage (x : Sample) : (s.withNextSample x).storage = s.storage := rfl
@[simp] theorem State.withNextSample_wr (x : Sample) : (s.withNextSample x).wr = s.wr := rfl
@[simp] theorem State.withNextSample_rd (x : Sample) : (s.withNextSample x).rd = s.rd := rfl
@[simp] theorem State.withNextSample_popData (x : Sample) : (s.withNextSample x).popData = s.popData := rfl
@[simp] theorem State.withNextSample_peekData (x : Sample) : (s.withNextSample x).peekData = s.peekData := rfl
@[simp] theorem State.withNextSample_resetSeen (x : Sample) : (s.withNextSample x).resetSeen = s.resetSeen := rfl
@[simp] theorem State.withNextSample_edge (x : Sample) : (s.withNextSample x).edge = s.edge := rfl
@[simp] theorem State.withNextSample_violations (x : Sample) : (s.withNextSample x).violations = s.violations := rfl
@[simp] theorem State.withNextSample_draws (x : Sample) : (s.withNextSample x).draws = s.draws := rfl
@[simp] theorem State.withNextSample_inputs (x : Sample) : (s.withNextSample x).inputs = x :: s.inputs.drop 1 := rfl
@[simp] theorem State.withNextSample_cap (x : Sample) : (s.withNextSample x).cap = s.cap := rfl

/-! ### presenting -/

@[simp] theorem State.presenting_config (is : List Instr) : (s.presenting is).config = s.config := rfl
@[simp] theorem State.presenting_storage (is : List Instr) : (s.presenting is).storage = s.storage := rfl
@[simp] theorem State.presenting_wr (is : List Instr) : (s.presenting is).wr = s.wr := rfl
@[simp] theorem State.presenting_rd (is : List Instr) : (s.presenting is).rd = s.rd := rfl
@[simp] theorem State.presenting_popData (is : List Instr) : (s.presenting is).popData = s.popData := rfl
@[simp] theorem State.presenting_peekData (is : List Instr) : (s.presenting is).peekData = s.peekData := rfl
@[simp] theorem State.presenting_resetSeen (is : List Instr) : (s.presenting is).resetSeen = s.resetSeen := rfl
@[simp] theorem State.presenting_edge (is : List Instr) : (s.presenting is).edge = s.edge := rfl
@[simp] theorem State.presenting_violations (is : List Instr) : (s.presenting is).violations = s.violations := rfl
@[simp] theorem State.presenting_draws (is : List Instr) : (s.presenting is).draws = s.draws := rfl
@[simp] theorem State.presenting_inputs (is : List Instr) : (s.presenting is).inputs = is.map (Sample.ofInstr s.config) := rfl
@[simp] theorem State.presenting_cap (is : List Instr) : (s.presenting is).cap = s.cap := rfl

/-! ### peekByte -/

@[simp] theorem State.peekByte_config (a : Nat) : (s.peekByte a).config = s.config := by
  unfold State.peekByte; split <;> rfl
@[simp] theorem State.peekByte_storage (a : Nat) : (s.peekByte a).storage = s.storage := by
  unfold State.peekByte; split <;> rfl
@[simp] theorem State.peekByte_wr (a : Nat) : (s.peekByte a).wr = s.wr := by
  unfold State.peekByte; split <;> rfl
@[simp] theorem State.peekByte_rd (a : Nat) : (s.peekByte a).rd = s.rd := by
  unfold State.peekByte; split <;> rfl
@[simp] theorem State.peekByte_popData (a : Nat) : (s.peekByte a).popData = s.popData := by
  unfold State.peekByte; split <;> rfl
@[simp] theorem State.peekByte_resetSeen (a : Nat) : (s.peekByte a).resetSeen = s.resetSeen := by
  unfold State.peekByte; split <;> rfl
@[simp] theorem State.peekByte_edge (a : Nat) : (s.peekByte a).edge = s.edge := by
  unfold State.peekByte; split <;> rfl
@[simp] theorem State.peekByte_violations (a : Nat) : (s.peekByte a).violations = s.violations := by
  unfold State.peekByte; split <;> rfl
@[simp] theorem State.peekByte_inputs (a : Nat) : (s.peekByte a).inputs = s.inputs := by
  unfold State.peekByte; split <;> rfl
@[simp] theorem State.peekByte_cap (a : Nat) : (s.peekByte a).cap = s.cap := by
  unfold State.peekByte; split <;> rfl

theorem State.peekByte_peekData (a : Nat) :
    (s.peekByte a).peekData = if a < s.cap then Memory.read s.storage a else Config.peekOobValue s.draws := by
  unfold State.peekByte State.peekInRange
  by_cases h : a < s.cap <;> simp [h]

theorem State.peekByte_draws (a : Nat) :
    (s.peekByte a).draws = if a < s.cap then s.draws else s.draws + 1 := by
  unfold State.peekByte State.peekInRange
  by_cases h : a < s.cap <;> simp [h]

/-! ### Flags and occupancy depend on the cursors and the capacity alone -/

section
variable {s} {t : State}

theorem State.empty_congr (hw : t.wr = s.wr) (hr : t.rd = s.rd) : t.empty = s.empty := by
  simp only [State.empty, hw, hr]

theorem State.full_congr (hw : t.wr = s.wr) (hr : t.rd = s.rd) : t.full = s.full := by
  simp only [State.full, hw, hr]

theorem State.occ_congr (hw : t.wr = s.wr) (hr : t.rd = s.rd) (hc : t.cap = s.cap) : t.occ = s.occ := by
  simp only [State.occ, State.wrExt, State.rdExt, hw, hr, hc]

end

/-! ### The reset state -/

@[simp] theorem State.resetWith_cap (c : Config) : (State.resetWith c).cap = c.cap := rfl
@[simp] theorem State.resetWith_empty (c : Config) : (State.resetWith c).empty = true := rfl
@[simp] theorem State.resetWith_full (c : Config) : (State.resetWith c).full = false := rfl

end Sys2Proof.Machine
end

