-- ==== Sys2Proof/Laws/Exec.lean ====
section
/-! SUPPORT. What the shared operations and each command can do, said once: provers cite these and unfold nothing. -/

namespace Sys2Proof.Machine

variable {s t : State}

/-! ## The shared check -/

/-- `accessing` answers a next state exactly when every slot is one of the array, and then it is the one given. -/
theorem State.accessing_next {slots : List Nat} {u : State} :
    s.accessing slots u = .next t ↔ (∀ a ∈ slots, a < s.cap) ∧ u = t := by
  unfold State.accessing
  split
  next a ha =>
    have h1 := List.find?_some ha
    have h2 := List.mem_of_find?_eq_some ha
    simp only [decide_eq_true_eq] at h1
    constructor
    · intro h; exact absurd h (by simp)
    · rintro ⟨h, -⟩; have := h a h2; omega
  next hn =>
    simp only [List.find?_eq_none, decide_eq_true_eq, Nat.not_le] at hn
    constructor
    · intro h; exact ⟨hn, by simpa using h⟩
    · rintro ⟨-, rfl⟩; rfl

/-- With every slot in range, the check gives the state. -/
theorem State.accessing_of_lt {slots : List Nat} {u : State} (h : ∀ a ∈ slots, a < s.cap) :
    s.accessing slots u = .next u := State.accessing_next.mpr ⟨h, rfl⟩

/-- The check never refuses. -/
theorem State.accessing_ne_refused {slots : List Nat} {u : State} {r : Refusal} :
    s.accessing slots u ≠ .refused r := by
  unfold State.accessing; split <;> simp

/-! ## What each command leaves -/

/-- The state a command leaves when it completes. -/
def afterCommand (i : Instr) (s : State) : State :=
  match i with
  | .reset        => { s.zeroQueue with popData := 0x00#8, peekData := 0x00#8, resetSeen := true }
  | .clear        => (s.record .clear []).zeroQueue
  | .nop          => s.record .nop []
  | .push d       => (s.record .push s.overflows).pushByte d
  | .pop          => (s.record .pop s.underflows).popByte
  | .pushpop d    => (s.record .pushpop s.underflows).popByte.pushByte d
  | .peek a       => (s.record .peek (s.peekRanges a)).peekByte a
  | .peekpush a d => ((s.record .peekpush (s.overflows ++ s.peekRanges a)).peekByte a).pushByte d

/-- The slots a command's ports reach by a cursor. -/
def cursorSlots (i : Instr) (s : State) : List Nat :=
  match i with
  | .reset        => []
  | .clear        => []
  | .nop          => []
  | .push _       => [s.wr.idx]
  | .pop          => [s.rd.idx]
  | .pushpop _    => [s.rd.idx, s.wr.idx]
  | .peek _       => []
  | .peekpush _ _ => [s.wr.idx]

/-- Every command is the shared check over its slots, then its own effect. -/
theorem exec_eq_accessing (i : Instr) (s : State) : exec i s = s.accessing (cursorSlots i s) (afterCommand i s) := by
  cases i <;> rfl

/-- A command that answers next leaves the state of its rule. -/
theorem exec_next (i : Instr) : exec i s = .next t ↔ (∀ a ∈ cursorSlots i s, a < s.cap) ∧ afterCommand i s = t := by
  rw [exec_eq_accessing, State.accessing_next]

theorem cursorSlots_lt {i : Instr} (h : s.CursorsInRange) : ∀ a ∈ cursorSlots i s, a < s.cap := by
  obtain ⟨h1, h2⟩ := h
  cases i <;> simp [cursorSlots, h1, h2]

/-- With the cursors in range every command completes (R71). -/
theorem exec_of_inRange (i : Instr) (h : s.CursorsInRange) : exec i s = .next (afterCommand i s) :=
  (exec_next i).mpr ⟨cursorSlots_lt h, rfl⟩

theorem exec_ne_refused (i : Instr) (r : Refusal) : exec i s ≠ .refused r := by
  rw [exec_eq_accessing]; exact State.accessing_ne_refused

/-! ## The fields after a command, one lemma a field -/

theorem afterCommand_config (i : Instr) (s : State) : (afterCommand i s).config = s.config := by
  cases i <;> simp [afterCommand]

theorem afterCommand_cap (i : Instr) (s : State) : (afterCommand i s).cap = s.cap :=
  congrArg Config.cap (afterCommand_config i s)

theorem afterCommand_edge (i : Instr) (s : State) : (afterCommand i s).edge = s.edge := by
  cases i <;> simp [afterCommand]

theorem afterCommand_inputs (i : Instr) (s : State) : (afterCommand i s).inputs = s.inputs := by
  cases i <;> simp [afterCommand]

/-- The write cursor: back at its start, or advanced by a push, or as it was (R14). -/
theorem afterCommand_wr (i : Instr) (s : State) : (afterCommand i s).wr =
    if restarts i then Cursor.start else if pushedBytes i = [] then s.wr else s.wr.adv s.cap := by
  cases i <;> simp [afterCommand, restarts, pushedBytes]

/-- The read cursor: back at its start, or advanced by a pop, or as it was (R14). -/
theorem afterCommand_rd (i : Instr) (s : State) : (afterCommand i s).rd =
    if restarts i then Cursor.start else if includesPop i then s.rd.adv s.cap else s.rd := by
  cases i <;> simp [afterCommand, restarts, includesPop]

/-- The array: cleared, or written at the write cursor by a push, or as it was (R19). -/
theorem afterCommand_storage (i : Instr) (s : State) : (afterCommand i s).storage =
    if restarts i then [] else match pushedBytes i with
      | []     => s.storage
      | d :: _ => Memory.write s.storage s.wr.idx d := by
  cases i <;> simp [afterCommand, restarts, pushedBytes]

/-- `pop_data`: zeroed by RESET, the byte at the read cursor after a pop, or as it was (R20). -/
theorem afterCommand_popData (i : Instr) (s : State) : (afterCommand i s).popData =
    if i = .reset then 0x00#8 else if includesPop i then Memory.read s.storage s.rd.idx else s.popData := by
  cases i <;> simp [afterCommand, includesPop]

/-- `peek_data`: zeroed by RESET, the slot's byte or a free byte after a peek, or as it was (R20, R66, R67). -/
theorem afterCommand_peekData (i : Instr) (s : State) : (afterCommand i s).peekData =
    if i = .reset then 0x00#8 else match peekIndex? i with
      | some a => if a < s.cap then Memory.read s.storage a else Config.peekOobValue s.draws
      | none   => s.peekData := by
  cases i <;> simp [afterCommand, peekIndex?, State.peekByte_peekData] <;> rfl

theorem afterCommand_draws (i : Instr) (s : State) : (afterCommand i s).draws =
    match peekIndex? i with
      | some a => if a < s.cap then s.draws else s.draws + 1
      | none   => s.draws := by
  cases i <;> simp [afterCommand, peekIndex?, State.peekByte_draws] <;> rfl

theorem afterCommand_resetSeen (i : Instr) (s : State) : (afterCommand i s).resetSeen =
    if i = .reset then true else s.resetSeen := by
  cases i <;> simp [afterCommand]

/-- What a command raises when it is judged on the state before it (R74, R76). -/
def raisedBy (i : Instr) (s : State) : List Violation :=
  (if pushedBytes i ≠ [] ∧ includesPop i = false then s.overflows else []) ++
  (if includesPop i = true then s.underflows else []) ++
  (match peekIndex? i with
    | some a => s.peekRanges a
    | none   => [])

theorem afterCommand_violations (i : Instr) (s : State) : (afterCommand i s).violations =
    if i = .reset then s.violations else s.violations ++ s.raised i.command (raisedBy i s) := by
  cases i <;> simp [afterCommand, raisedBy, pushedBytes, includesPop, peekIndex?, Instr.command]

/-! ## The cursors and the occupancy after a command -/

/-- Every command keeps the cursors in range (R18). -/
theorem afterCommand_inRange {i : Instr} (h : s.CursorsInRange) : (afterCommand i s).CursorsInRange := by
  have hc := s.cap_pos
  refine ⟨?_, ?_⟩
  · rw [afterCommand_cap, afterCommand_wr]
    split
    · exact hc
    · split
      · exact h.1
      · exact Cursor.adv_lt h.1
  · rw [afterCommand_cap, afterCommand_rd]
    split
    · exact hc
    · split
      · exact Cursor.adv_lt h.2
      · exact h.2

/-- The occupancy after a command that does not restart the queue (R60). -/
theorem afterCommand_occ {i : Instr} (h : s.CursorsInRange) (hr : restarts i = false) :
    (afterCommand i s).occ = match decide (pushedBytes i = []), includesPop i with
      | true, false  => s.occ
      | true, true   => (s.occ + (2 * s.cap - 1)) % (2 * s.cap)
      | false, false => (s.occ + 1) % (2 * s.cap)
      | false, true  => s.occ := by
  obtain ⟨o1, o2, o3⟩ := State.occ_of_cursors (afterCommand_config i s) h.1 h.2
  have hw := afterCommand_wr i s
  have hd := afterCommand_rd i s
  rw [hr] at hw hd
  by_cases hp : pushedBytes i = [] <;> cases hq : includesPop i <;> simp [hp, hq] at hw hd ⊢
  · exact State.occ_congr hw hd (afterCommand_cap i s)
  · exact o2 hw hd
  · exact o1 hw hd
  · exact o3 hw hd

/-- The slots after a command that pushes (R19). -/
theorem read_afterCommand_push {i : Instr} {d : Byte} (h : s.Inv) (hp : pushedBytes i = [d]) (hr : restarts i = false)
    (x : Nat) : Memory.read (afterCommand i s).storage x = if x = s.wr.idx then d else Memory.read s.storage x := by
  rw [afterCommand_storage, hr, hp]
  exact Memory.read_write h.2

/-- The flags by the occupancy (R21, R22). -/
theorem State.flags_iff_occ (h : s.CursorsInRange) :
    (s.full = true ↔ s.occ = s.cap) ∧ (s.empty = true ↔ s.occ = 0 ∨ s.occ = s.cap) := by
  have hf := State.full_iff_occ h.1 h.2
  have hn := State.noByte_iff_occ h.1 h.2
  have hef : s.full = true → s.empty = true := by simp only [State.full, State.empty, Bool.and_eq_true]; exact And.left
  refine ⟨hf, ?_⟩
  rw [← hf, ← hn]
  cases he : s.empty <;> cases hfl : s.full <;> simp_all

/-- Every command only appends to the log, records of its own edge (R75). -/
theorem afterCommand_log (i : Instr) (s : State) :
    ∃ l, (afterCommand i s).violations = s.violations ++ l ∧ ∀ r ∈ l, r.edge = s.edge := by
  rw [afterCommand_violations]
  split
  · exact ⟨[], by simp, by simp⟩
  · refine ⟨_, rfl, fun r hr => ?_⟩
    simp only [State.raised, List.mem_map] at hr
    obtain ⟨v, -, rfl⟩ := hr
    rfl

/-! ## The step -/

/-- One more edge of a run. -/
theorem core_run_succ (k : Nat) (s : State) : Sys2Proof.core.run (k + 1) s =
    match step s with
      | .next s'   => Sys2Proof.core.run k s'
      | .fault r   => .fault r
      | .refused r => .refused r := by
  cases h : step s <;> simp only [Host.Core.run] <;> rw [show Sys2Proof.core.step s = _ from h]

/-- A fetch that succeeds takes the first sample, which decodes. -/
theorem State.fetch_ok {i : Instr} {u : State} : s.fetch = .ok (i, u) ↔
    ∃ x rest, s.inputs = x :: rest ∧ decode s.config x = .ok i ∧
      u = { s with inputs := rest, edge := s.edge + 1 } := by
  unfold State.fetch
  split
  next h => simp [h]
  next x rest h =>
    split
    next j hj =>
      constructor
      · intro e; cases e; exact ⟨x, rest, h, hj, rfl⟩
      · rintro ⟨x', rest', h', hd, rfl⟩
        rw [h] at h'; cases h'
        rw [hj] at hd; cases hd; rfl
    next e he =>
      constructor
      · intro hh; cases hh
      · rintro ⟨x', rest', h', hd, rfl⟩
        rw [h] at h'; cases h'
        rw [he] at hd; cases hd

/-- One step that answers next is one fetched command run at the edge it was fetched for. -/
theorem step_next : step s = .next t ↔
    ∃ i u, s.fetch = .ok (i, u) ∧ exec i u = .next t := by
  unfold step
  split
  next i u h => simp [h]
  next r h =>
    constructor
    · intro e; exact absurd e (by simp)
    · rintro ⟨i, u, hf, -⟩; rw [h] at hf; cases hf

/-- Fetching touches no hardware state. -/
theorem State.fetch_frame {i : Instr} {u : State} (h : s.fetch = .ok (i, u)) :
    u.hw = s.hw ∧ u.draws = s.draws ∧ u.resetSeen = s.resetSeen ∧ u.violations = s.violations ∧
      u.edge = s.edge + 1 := by
  obtain ⟨x, rest, -, -, rfl⟩ := State.fetch_ok.mp h
  exact ⟨rfl, rfl, rfl, rfl, rfl⟩

/-! ## Pins and rows -/

/-- The rows of R48 at the pins, one alternative for each command. -/
theorem row_iff_pins {x : Sample} {k : Command} :
    (∃ r ∈ commandTable, r.command = k ∧
      ∀ j : Fin 5, r.mask.getLsbD j = true → (ctrlPin x j).bit? = some (r.pattern.getLsbD j)) ↔
    (x.controller.rst.bit? = some true ∧ k = .reset) ∨
    (x.controller.rst.bit? = some false ∧ x.controller.clr.bit? = some true ∧ k = .clear) ∨
    (x.controller.rst.bit? = some false ∧ x.controller.clr.bit? = some false ∧
      ∃ q p, x.consumer.pop.bit? = some q ∧ x.producer.push.bit? = some p ∧
        ((q = true ∧ k = if p then .pushpop else .pop) ∨
         (q = false ∧ ∃ b, x.consumer.peek.bit? = some b ∧
           k = if b then (if p then .peekpush else .peek) else (if p then .push else .nop)))) := by
  simp only [commandTable, List.mem_cons, List.not_mem_nil, or_false, exists_eq_or_imp, exists_eq_left,
    Fin.forall_fin_succ, ctrlPin]
  simp
  cases k <;> simp <;> tauto

/-- The request pins give a command exactly when the pins of the command's row are known and show its pattern (R48). -/
theorem row_iff_ctrl {x : Sample} {k : Command} :
    (∃ r ∈ commandTable, r.command = k ∧
      ∀ j : Fin 5, r.mask.getLsbD j = true → (ctrlPin x j).bit? = some (r.pattern.getLsbD j)) ↔
    ∃ ctrl, x.ctrl = .ok ctrl ∧ decodeCtrl ctrl = k := by
  rw [row_iff_pins]
  rcases Sample.ctrl_cases x with ⟨ctrl, hc, h⟩ | ⟨p, hc, h⟩
  · simp only [hc, Except.ok.injEq, exists_eq_left']
    rcases h with ⟨h0, hd⟩ | ⟨h0, h1, hd⟩ | ⟨h0, h1, q, p, h2, h3, ⟨hq, hd⟩ | ⟨hq, b, h4, hd⟩⟩ <;> subst_vars <;>
      simp [*, eq_comm]
  · simp only [hc, reduceCtorEq, false_and, exists_false, iff_false]
    rcases h with h0 | ⟨h0, h1⟩ | ⟨h0, h1, h2 | h3 | ⟨h2, h4⟩⟩ <;> simp [*]

/-- A sample that presents a row decodes to that row's command, whatever the pins the row leaves open show. -/
theorem Presents.decode_row {c : Config} {x : Sample} {r : TableRow} (hr : r ∈ commandTable)
    (h : Presents c x r.pattern r.mask) : decode c x = r.command.withOperands x := by
  obtain ⟨h8, hw, hp⟩ := h
  obtain ⟨ctrl, hc, hk⟩ := row_iff_ctrl.mp ⟨r, hr, rfl, hp⟩
  rw [decode_of_ctrl (Sample.checkWidths_ok.mpr ⟨h8, hw⟩) hc, hk]

/-- A sample whose control pins are all known is read as the field it shows (R45). -/
theorem Presents.ctrl_known {c : Config} {x : Sample} {ctrl : BitVec 5} (h : Presents c x ctrl 0b11111#5) :
    x.ctrl = .ok ctrl := by
  have hk : ∀ j : Fin 5, (ctrlPin x j).bit? = some (ctrl.getLsbD j) := fun j => h.2.2 j (by revert j; decide)
  have h0 : x.producer.push.bit? = some (ctrl.getLsbD 0) := hk 0
  have h1 : x.consumer.pop.bit? = some (ctrl.getLsbD 1) := hk 1
  have h2 : x.consumer.peek.bit? = some (ctrl.getLsbD 2) := hk 2
  have h3 : x.controller.clr.bit? = some (ctrl.getLsbD 3) := hk 3
  have h4 : x.controller.rst.bit? = some (ctrl.getLsbD 4) := hk 4
  simp only [Sample.ctrl, Level.sampleIf_known h0, Level.sampleIf_known h1, Level.sampleIf_known h2,
    Level.sampleIf_known h3, Level.sampleIf_known h4]
  exact congrArg Except.ok (ctrlField_bits ctrl)

/-- A well-formed instruction put on the pins of the next edge is what the next step runs. -/
theorem State.fetch_ofInstr {i : Instr} (h : i.wellFormed s.config = true) :
    (s.withNextSample (Sample.ofInstr s.config i)).fetch
      = .ok (i, { s with inputs := s.inputs.drop 1, edge := s.edge + 1 }) := by
  refine State.fetch_ok.mpr ⟨_, _, State.withNextSample_inputs s _, ?_, rfl⟩
  have ha := Instr.addrField_lt h
  show decode s.config (Sample.ofWord s.config (commandWord s.config _ _ _)) = _
  rw [decode_of_ctrl (Sample.checkWidths_ofWord _ _) (Sample.ctrl_ofWord _ _ _ ha), decodeCtrl_encodeCtrl]
  exact Instr.withOperands_self (Sample.pushByte_ofWord _ _ _ ha) (Sample.peekIndex_ofWord _ _ _ ha)

end Sys2Proof.Machine
end

