-- ==== Sys2Proof/Laws/PerInstr.lean ====
section
/-! SUPPORT. Statements about every instruction as syntax, one lemma per constructor. -/

namespace Sys2Proof.Laws

/-! ## The command word of a well-formed instruction has 13 + W bits (R50) -/

/-- The encoder stays inside the command word. -/
def WordFits.Statement (i : Instr) : Prop :=
  ∀ c : Config, i.wellFormed c = true → encode c i < 2 ^ c.wordWidth

theorem WordFits.of_wellFormed (i : Instr) : WordFits.Statement i :=
  fun c h => commandWord_lt c _ _ (Instr.addrField_lt h)

theorem WordFits.reset : WordFits.Statement .reset := WordFits.of_wellFormed _
theorem WordFits.clear : WordFits.Statement .clear := WordFits.of_wellFormed _
theorem WordFits.nop : WordFits.Statement .nop := WordFits.of_wellFormed _
theorem WordFits.push (d : Byte) : WordFits.Statement (.push d) := WordFits.of_wellFormed _
theorem WordFits.pop : WordFits.Statement .pop := WordFits.of_wellFormed _
theorem WordFits.pushpop (d : Byte) : WordFits.Statement (.pushpop d) := WordFits.of_wellFormed _
theorem WordFits.peek (a : Nat) : WordFits.Statement (.peek a) := WordFits.of_wellFormed _
theorem WordFits.peekpush (a : Nat) (d : Byte) : WordFits.Statement (.peekpush a d) := WordFits.of_wellFormed _

end Sys2Proof.Laws
end

