-- ==== Sys2Proof/Tests/Slice0.lean ====
section
/-! SUPPORT. Tests of the model against words and vectors that spec/ writes out, the smoke tests of WellFormed, and for each
statement with hypotheses a witness that meets them. Expected values come from 30_encoding.md and 95_test_vectors.md. -/

namespace Sys2Proof.Tests

open Sys2Proof Sys2Proof.Machine

/-! ## Small states -/

/-- The block of `REQ_CAPACITY = n`. -/
def cfg (n : Nat) : Config := { reqCapacity := n }

/-- A state after a RESET, with an array and cursors of its own. -/
def blk (n : Nat) (m : Memory) (w r : Nat × Bool) : State :=
  { State.resetWith (cfg n) with storage := m, wr := ⟨w.1, w.2⟩, rd := ⟨r.1, r.2⟩ }

/-- The common state of 95_test_vectors.md section 2.1: `[07,08,09,00] w=3,1 r=1,0 pd=0x07 kd=0x09`. -/
def c0 : State :=
  { blk 4 [(0, 0x07), (1, 0x08), (2, 0x09)] (3, true) (1, false) with popData := 0x07, peekData := 0x09 }

/-- The full block of vectors Q4, Q7, Q9: `[01,02,03,04] w=0,1 r=0,0`. -/
def full4 : State := blk 4 [(0, 1), (1, 2), (2, 3), (3, 4)] (0, true) (0, false)

/-- The empty block just after RESET, `CAP = 4`. -/
def empty4 : State := blk 4 [] (0, false) (0, false)

/-- A state with the pins of a command word at its next edge. -/
def onPins (s : State) (word : Nat) : State := s.withNextSample (Sample.ofWord s.config word)

/-- What a step leaves in some fields, when it answers next. -/
def seen {α : Type} (f : State → α) (s : State) : Option α :=
  match step s with
  | .next t    => some (f t)
  | .fault _   => none
  | .refused _ => none

/-- The cursors, as `w=idx,lap r=idx,lap`. -/
def cursors (s : State) : (Nat × Bool) × (Nat × Bool) := ((s.wr.idx, s.wr.lap), (s.rd.idx, s.rd.lap))

/-- The violations recorded, without their edge. -/
def raisedIn (s : State) : List Violation := s.violations.map (·.violation)

/-! ## WellFormed refuses an ill-formed term, for each of its checks -/

theorem test_peek_index_beyond_port_is_ill_formed : Instr.wellFormed (cfg 0) (.peek 128) = false := by decide
theorem test_peekpush_index_beyond_port_is_ill_formed : Instr.wellFormed (cfg 5) (.peekpush 8 0) = false := by decide
theorem test_peek_index_on_port_is_well_formed : Instr.wellFormed (cfg 5) (.peek 7) = true := by decide

/-! ## Decoding: words of R50 and 95_test_vectors.md, and the don't-care bits of R48 -/

theorem test_decode_reset : decodeWord (cfg 4) 0b10000_00000000_00 = .ok .reset := by decide
theorem test_decode_reset_beats_all : decodeWord (cfg 4) 0b11111_01010101_11 = .ok .reset := by decide
theorem test_decode_clear : decodeWord (cfg 4) 0b01111_00000000_00 = .ok .clear := by decide
theorem test_decode_nop : decodeWord (cfg 4) 0b00000_11111111_11 = .ok .nop := by decide
theorem test_decode_push : decodeWord (cfg 4) 0b00001_01000001_00 = .ok (.push 0x41) := by decide
theorem test_decode_pop : decodeWord (cfg 4) 0b00010_00000000_00 = .ok .pop := by decide
theorem test_decode_pop_drops_peek : decodeWord (cfg 5) 0b00110_00000000_111 = .ok .pop := by decide
theorem test_decode_pushpop : decodeWord (cfg 4) 0x0C14 = .ok (.pushpop 5) := by decide
theorem test_decode_peek : decodeWord (cfg 4) 0x1003 = .ok (.peek 3) := by decide
theorem test_decode_peekpush : decodeWord (cfg 5) 0x2B36 = .ok (.peekpush 6 0x66) := by decide
theorem test_word_too_wide : decodeWord (cfg 4) 0x8000 = .error .wordTooWide := by decide

/-- A sample of `CAP = 4` with every pin but the requests given X or Z. -/
def hazy (rst clr push pop peek : Level) : Sample :=
  { controller := ⟨rst, clr⟩
    producer   := ⟨push, List.replicate 8 .unknown⟩
    consumer   := ⟨pop, peek, [.undriven, .unknown]⟩ }

/-- The don't-care pins of R55, R56 and R63 may be X or Z; the same pins are used, and refused, without the request. -/
theorem test_reset_ignores_unknown_requests :
    decode (cfg 4) (hazy .high .unknown .undriven .unknown .undriven) = .ok .reset := by decide
theorem test_clear_ignores_unknown_requests :
    decode (cfg 4) (hazy .low .high .unknown .undriven .unknown) = .ok .clear := by decide
theorem test_pop_ignores_unknown_peek : decode (cfg 4) (hazy .low .low .low .high .unknown) = .ok .pop := by decide
theorem test_unknown_peek_without_pop_is_refused :
    decode (cfg 4) (hazy .low .low .low .low .unknown) = .error (.unknownInput .peek) := by decide
theorem test_unknown_rst_is_refused :
    decode (cfg 4) (hazy .unknown .high .low .low .low) = .error (.unknownInput .rst) := by decide

/-- An undriven `clr` is refused (R52); an unknown pin of an unused bus is not (R46). -/
theorem test_undriven_control_is_refused :
    decode (cfg 4) { Sample.ofWord (cfg 4) 0 with controller := { rst := .low, clr := .undriven } }
      = .error (.unknownInput .clr) := by decide
theorem test_unknown_unused_bus_is_accepted :
    decode (cfg 4) { Sample.ofWord (cfg 4) 0x0800 with
      consumer := { pop := .high, peek := .low, peekAddr := [.unknown, .undriven] } } = .ok .pop := by decide

/-- Table rows in the table's own numbering. -/
theorem test_table_word_pushpop : decodeTableWord 8 0b00111 = some (.pushpop 0) := by decide

/-! ## One step: vectors of 95_test_vectors.md section 2 -/

/-- C1: RESET with push and pop requested. -/
theorem test_C1 : seen (fun t => (t.storage, cursors t, t.outputs, t.violations)) (onPins c0 0b10011_01010101_00)
    = some ([], ((0, false), (0, false)), ⟨true, false, 0, 0⟩, []) := by decide

/-- C2: CLEAR with a pop requested keeps the output registers. -/
theorem test_C2 : seen (fun t => (t.storage, cursors t, t.outputs, t.violations)) (onPins c0 0b01010_00000000_00)
    = some ([], ((0, false), (0, false)), ⟨true, false, 7, 9⟩, []) := by decide

/-- C5: CLEAR before the first RESET. -/
theorem test_C5 : seen (fun t => (raisedIn t, t.resetSeen)) (onPins { c0 with resetSeen := false } 0b01000_00000000_00)
    = some ([.noReset .clear], false) := by decide

/-- C3: NOP. -/
theorem test_C3 : seen (fun t => (decide (t.hw = c0.hw), t.occ)) (onPins c0 0) = some (true, 6) := by decide

/-- Q2: a push wraps the write cursor and toggles its lap bit. -/
theorem test_Q2 : seen (fun t => (t.storage, cursors t, t.occ, t.violations))
    (onPins (blk 4 [(0, 1), (1, 2), (2, 3)] (3, false) (1, false)) 0b00001_11111111_00)
    = some ([(0, 1), (1, 2), (2, 3), (3, 0xFF)], ((0, true), (1, false)), 3, []) := by decide

/-- Q4: the silent overwrite. -/
theorem test_Q4 : seen (fun t => (t.storage, cursors t, t.occ)) (onPins full4 0b00001_00000101_00)
      = some ([(0, 5), (1, 2), (2, 3), (3, 4)], ((1, true), (0, false)), 5) ∧
    seen (fun t => (t.empty, t.full, raisedIn t)) (onPins full4 0b00001_00000101_00)
      = some (false, false, [.overflow 0 1]) := by decide

/-- Q7: a pop at full is legal. -/
theorem test_Q7 : seen (fun t => (t.popData, cursors t, t.occ, t.violations)) (onPins full4 0x0800)
    = some (1, ((0, true), (1, false)), 3, []) := by decide

/-- Q8: a pop at occupancy 0. -/
theorem test_Q8 : seen (fun t => (t.popData, cursors t, t.occ, raisedIn t)) (onPins empty4 0x0800)
    = some (0, ((0, false), (1, false)), 7, [.underflow 0]) := by decide

/-- Q9: PUSHPOP at full is lossless. -/
theorem test_Q9 : seen (fun t => (t.storage, t.popData, cursors t)) (onPins full4 0x0C14)
      = some ([(0, 5), (1, 2), (2, 3), (3, 4)], 1, ((1, true), (1, false))) ∧
    seen (fun t => (t.full, t.violations)) (onPins full4 0x0C14) = some (true, []) := by decide

/-- Q10: PUSHPOP at occupancy 0 returns the stale byte. -/
theorem test_Q10 : seen (fun t => ((t.storage, t.popData), cursors t, raisedIn t))
    (onPins (blk 4 [(0, 9), (1, 8), (2, 7), (3, 6)] (2, false) (2, false)) 0b00011_00110011_00)
    = some (([(0, 9), (1, 8), (2, 0x33), (3, 6)], 7), ((3, false), (3, false)), [.underflow 2]) := by decide

/-- K2: a peek of a slot already popped. -/
theorem test_K2 : seen (fun t => (t.peekData, cursors t, t.violations))
    (onPins (blk 4 [(0, 0x41), (1, 0x42)] (2, false) (1, false)) 0x1000)
    = some (0x41, ((2, false), (1, false)), []) := by decide

/-- K3: a peek out of range completes with a record; its byte is free. -/
theorem test_K3 : seen (fun t => (t.storage, cursors t, raisedIn t))
    (onPins (blk 5 [(0, 1), (1, 2), (2, 3), (3, 4), (4, 5)] (0, false) (0, false)) 0x2005)
    = some ([(0, 1), (1, 2), (2, 3), (3, 4), (4, 5)], ((0, false), (0, false)), [.peekRange 5]) := by decide

/-- K4: a peek of the slot being pushed sees the old byte. -/
theorem test_K4 : seen (fun t => (t.storage, t.peekData, t.occ))
    (onPins (blk 4 [(0, 0x41)] (1, false) (0, false)) 0x1509) = some ([(0, 0x41), (1, 0x42)], 0, 2) := by decide

/-- K5: two violations at one edge, in code order. -/
theorem test_K5 : seen (fun t => (t.storage, cursors t, t.occ, raisedIn t))
    (onPins (blk 5 [(0, 1), (1, 2), (2, 3), (3, 4), (4, 5)] (2, true) (2, false)) 0x2B36)
    = some ([(0, 1), (1, 2), (2, 0x66), (3, 4), (4, 5)], ((3, true), (2, false)), 6, [.overflow 2 3, .peekRange 6]) := by
  decide

/-! ## Listings (R53, R54) -/

theorem test_line_with_comment : parseLine ['p', 'u', 's', 'h', ' ', '0', 'x', '4', '1', ' ', ';', 'a']
    = .ok (some (.command (.push 0x41))) := by decide
theorem test_line_two_operands : parseLine ['P', 'E', 'E', 'K', 'P', 'U', 'S', 'H', ' ', '1', ',', ' ', '0', 'b', '1', '0']
    = .ok (some (.command (.peekpush 1 2))) := by decide
theorem test_line_byte_out_of_range : parseLine ['P', 'U', 'S', 'H', ' ', '2', '5', '6'] = .error .outOfRange := by decide
theorem test_listing_last_is_cap_minus_one : assembleText (cfg 0) [['.', 'c', 'a', 'p', ' ', '5'], ['L', 'A', 'S', 'T']]
    = .ok (cfg 5, [.edge (.peek 4)]) := by decide
theorem test_listing_late_cap : assembleText (cfg 0) [['N', 'O', 'P'], ['.', 'c', 'a', 'p', ' ', '5']]
    = .error .lateCapacity := by decide

/-! ## Witnesses: each meets the hypotheses of the statement it names, all together -/

/-- A run of one command. -/
def runs (i : Instr) (s : State) : Prop := ∃ t, exec i s = .next t

theorem witness_CapacityIsFixedForLife : ∃ t, step (onPins empty4 0) = .next t := ⟨_, rfl⟩

theorem witness_IndexWidthIsLeast :
    (5 : Nat) ≤ 2 ^ 3 ∧ decode (cfg 5) (Sample.ofWord (cfg 5) 0) = .ok .nop ∧ 4 < (cfg 5).cap ∧
    (cfg 0).cap = 128 ∧ (cfg 1).cap = 1 ∧ (cfg 5).cap = 5 := by decide

/-- One sample for each clause: RESET with every bit set, CLEAR, and the six cases of the rule. -/
theorem witness_DecodePriority :
    ∀ k ∈ [0b11111, 0b01111, 0b00000, 0b00001, 0b00010, 0b00110, 0b00011, 0b00111, 0b00100, 0b00101],
      Presents (cfg 5) (Sample.ofWord (cfg 5) (k * 2 ^ 11)) (BitVec.ofNat 5 k) 0b11111#5 ∧
      (match decode (cfg 5) (Sample.ofWord (cfg 5) (k * 2 ^ 11)) with | .ok _ => true | .error _ => false) = true := by
  unfold Presents; decide

theorem witness_EveryKnownSampleDecodes :
    Presents (cfg 5) (Sample.ofWord (cfg 5) 0x2FFF) 0b00101#5 0b11111#5 ∧
    busValue (Sample.ofWord (cfg 5) 0x2FFF).producer.pushData = some 255 ∧
    busValue (Sample.ofWord (cfg 5) 0x2FFF).consumer.peekAddr = some 7 := by
  unfold Presents; decide

theorem witness_DecodeEncodeRoundTrip : Instr.wellFormed (cfg 5) (.peekpush 7 0xFF) = true := by decide

theorem witness_DecodedCommandsAreWellFormed : decode (cfg 5) (Sample.ofWord (cfg 5) 0x2007) = .ok (.peek 7) := by decide

theorem witness_CommandWordLayout :
    7 < 2 ^ (cfg 5).width ∧
    (Instr.wellFormed (cfg 5) (.peek 7) = true ∧ pushedBytes (.peek 7) = []) ∧
    (Instr.wellFormed (cfg 5) (.push 0xFF) = true ∧ peekIndex? (.push 0xFF) = none) ∧ (cfg 4).cap = 4 := by decide

/-- A POP with one `push_data` and one `peek_addr` against a POP with others, one of them unknown, and an unknown peek. -/
theorem witness_UnusedOperandsHaveNoEffect :
    let x := Sample.ofWord empty4.config 0x0800
    let y := { Sample.ofWord empty4.config 0x0BFF with consumer := ⟨.high, .undriven, [.unknown, .high]⟩ }
    ⟨.pop, 0b00010#5, 0b11011#5⟩ ∈ commandTable ∧
    Presents empty4.config x 0b00010#5 0b11011#5 ∧ Presents empty4.config y 0b00010#5 0b11011#5 ∧ x ≠ y ∧
    ¬usesPushData .pop ∧ ¬usesPeekAddr .pop ∧
    decode (cfg 5) (Sample.ofWord (cfg 5) 0x2B36) = .ok (.peekpush 6 0x66) := by
  unfold Presents usesPushData usesPeekAddr; decide

/-- A sample for each way an input is used and unknown (`rst`; `clr`; `pop`; `peek` without a pop; the `push_data` of a PUSH),
and one whose unknown inputs are all don't-care. -/
theorem witness_UnknownUsedInputsAreRefused :
    ((hazy .unknown .low .low .low .low).producer.pushData.length = 8 ∧
      (hazy .unknown .low .low .low .low).consumer.peekAddr.length = (cfg 4).width) ∧
    (hazy .unknown .low .low .low .low).controller.rst.bit? = none ∧
    (hazy .low .undriven .low .low .low).controller.clr.bit? = none ∧
    (hazy .low .low .low .unknown .low).consumer.pop.bit? = none ∧
    (hazy .low .low .low .low .undriven).consumer.peek.bit? = none ∧
    (Presents (cfg 4) (hazy .low .low .high .low .low) 0b00001#5 0b11111#5 ∧ usesPushData .push ∧
      busValue (hazy .low .low .high .low .low).producer.pushData = none) ∧
    (Presents (cfg 4) (hazy .high .unknown .undriven .unknown .undriven) 0b10000#5 0b10000#5 ∧
      ¬usesPushData .reset ∧ ¬usesPeekAddr .reset) := by
  unfold Presents usesPushData usesPeekAddr; decide

theorem witness_StepRunsTheDecodedCommand :
    (onPins full4 0x0C14).inputs = Sample.ofWord (cfg 4) 0x0C14 :: [] ∧
    decode full4.config (Sample.ofWord (cfg 4) 0x0C14) = .ok (.pushpop 5) := by decide

theorem witness_PresentedCommandRunsAtTheNextEdge : Instr.wellFormed empty4.config (.peek 3) = true := by decide

theorem witness_OutputsDependOnHardwareAlone :
    full4.hw = { full4 with edge := 9, violations := [⟨1, .noReset .nop⟩] }.hw := by decide

theorem witness_StopsAreNamed :
    empty4.inputs = [] ∧
    ([Level.low].length ≠ 8 ∧ (Sample.ofWord (cfg 5) 0).producer.pushData.length = 8 ∧
      (Sample.ofWord (cfg 5) 0).consumer.peekAddr.length ≠ empty4.config.width) ∧
    ((blk 5 [] (5, false) (4, false)).cap ≤ (blk 5 [] (5, false) (4, false)).wr.idx ∧
      (blk 5 [] (5, false) (4, false)).rd.idx < (blk 5 [] (5, false) (4, false)).cap) ∧
    (blk 5 [] (0, false) (5, false)).cap ≤ (blk 5 [] (0, false) (5, false)).rd.idx := by decide

theorem witness_ResetRule :
    runs .reset c0 ∧ runs .nop c0 ∧ (onPins c0 0x7FFF).inputs = Sample.ofWord (cfg 4) 0x7FFF :: [] ∧
    Presents c0.config (Sample.ofWord (cfg 4) 0x7FFF) 0b10000#5 0b10000#5 ∧
    Presents c0.config (hazy .high .unknown .undriven .unknown .undriven) 0b10000#5 0b10000#5 :=
  ⟨⟨_, rfl⟩, ⟨_, rfl⟩, rfl, by unfold Presents; decide, by unfold Presents; decide⟩

theorem witness_ClearRule :
    runs .clear c0 ∧ Presents c0.config (Sample.ofWord (cfg 4) 0x3FFF) 0b01000#5 0b11000#5 ∧
    Presents c0.config (hazy .low .high .unknown .undriven .unknown) 0b01000#5 0b11000#5 :=
  ⟨⟨_, rfl⟩, by unfold Presents; decide, by unfold Presents; decide⟩

theorem witness_NopRule : runs .nop c0 ∧ Presents c0.config (Sample.ofWord (cfg 4) 0x03FF) 0b00000#5 0b11111#5 :=
  ⟨⟨_, rfl⟩, by unfold Presents; decide⟩

/-- A target that builds at most 128 slots: the default is built, 129 is not. -/
theorem witness_ConstructGivesAnEmptyBlock :
    (fun cap : Nat => decide (cap ≤ 128)) (if (0 : Nat) = 0 then 128 else 0) = true ∧
    (fun cap : Nat => decide (cap ≤ 128)) (if (129 : Nat) = 0 then 128 else 129) = false := by decide

theorem witness_ResetAndClearDiffer : runs .reset c0 ∧ runs .clear c0 ∧ { c0 with resetSeen := false }.resetSeen = false :=
  ⟨⟨_, rfl⟩, ⟨_, rfl⟩, rfl⟩

theorem witness_PreResetCommandsActAndRecord :
    { c0 with resetSeen := false }.resetSeen = false ∧ (Instr.push 0x10) ≠ .reset ∧
    runs (.push 0x10) { c0 with resetSeen := false } ∧ runs (.push 0x10) { c0 with resetSeen := true } :=
  ⟨rfl, by decide, ⟨_, rfl⟩, ⟨_, rfl⟩⟩

/-- The last index of `CAP = 5` and one before it, `CAP = 1`, and a command that moves both cursors. -/
theorem witness_CursorAdvanceWraps :
    ((Cursor.mk 4 false).idx < 5 ∧ (Cursor.mk 4 false).idx = 5 - 1) ∧
    ((Cursor.mk 3 true).idx < 5 ∧ (Cursor.mk 3 true).idx ≠ 5 - 1) ∧ (Cursor.mk 0 true).idx < 1 ∧
    runs (.pushpop 1) full4 ∧ restarts (.pushpop 1) = false :=
  ⟨by decide, by decide, by decide, ⟨_, rfl⟩, rfl⟩

theorem witness_ExtendedPointerAdvances : (Cursor.mk 4 true).idx < 5 := by decide

theorem witness_OccupancyArithmetic :
    full4.CursorsInRange ∧ restarts (.push 5) = false ∧ runs (.push 5) full4 ∧ runs .pop empty4 :=
  ⟨by unfold State.CursorsInRange; decide, rfl, ⟨_, rfl⟩, ⟨_, rfl⟩⟩

/-- Occupancy `CAP - 1` and 0 at `CAP = 4`, 0 at `CAP = 1`, and the pins of a PUSH. -/
theorem witness_PushRule :
    ((blk 4 [] (3, false) (0, false)).CursorsInRange ∧ (blk 4 [] (3, false) (0, false)).occ = 4 - 1) ∧
    (empty4.CursorsInRange ∧ empty4.occ = 0 ∧ 2 ≤ empty4.cap) ∧
    ((blk 1 [] (0, false) (0, false)).CursorsInRange ∧ (blk 1 [] (0, false) (0, false)).occ = 0 ∧
      (blk 1 [] (0, false) (0, false)).cap = 1) ∧
    runs (.push 4) (blk 4 [] (3, false) (0, false)) ∧
    Presents empty4.config (Sample.ofWord (cfg 4) 0x0504) 0b00001#5 0b11111#5 ∧
    (Sample.ofWord (cfg 4) 0x0504).pushByte = .ok 0x41 :=
  ⟨by unfold State.CursorsInRange; decide, by unfold State.CursorsInRange; decide,
    by unfold State.CursorsInRange; decide, ⟨_, rfl⟩, by unfold Presents; decide, by decide⟩

theorem witness_SilentOverwrite :
    full4.Inv ∧ full4.full = true ∧ full4.resetSeen = true ∧ runs (.push 5) full4 ∧ runs (.peekpush 0 5) full4 ∧
    (1 ≤ 3 ∧ 3 < full4.cap) ∧ (blk 1 [(0, 1)] (0, true) (0, false)).Inv ∧
    (blk 1 [(0, 1)] (0, true) (0, false)).full = true :=
  ⟨by unfold State.Inv State.CursorsInRange; decide, rfl, rfl, ⟨_, rfl⟩, ⟨_, rfl⟩, by decide,
    by unfold State.Inv State.CursorsInRange; decide, rfl⟩

/-- Occupancy 1, occupancy `CAP`, and the two control fields of POP. -/
theorem witness_PopRule :
    ((blk 4 [] (1, false) (0, false)).CursorsInRange ∧ (blk 4 [] (1, false) (0, false)).occ = 1) ∧
    (full4.CursorsInRange ∧ full4.occ = full4.cap ∧ 2 ≤ full4.cap) ∧
    (∃ t u, exec .pop full4 = .next t ∧ exec (.peek 2) t = .next u ∧ includesPop (.peek 2) = false) ∧
    Presents full4.config (Sample.ofWord (cfg 4) 0x0800) 0b00010#5 0b11011#5 ∧
    Presents full4.config (Sample.ofWord (cfg 4) 0x1803) 0b00010#5 0b11011#5 :=
  ⟨by unfold State.CursorsInRange; decide, by unfold State.CursorsInRange; decide, ⟨_, _, rfl, rfl, rfl⟩,
    by unfold Presents; decide, by unfold Presents; decide⟩

theorem witness_PopAtOccupancyZero :
    empty4.CursorsInRange ∧ empty4.occ = 0 ∧ 2 ≤ empty4.cap ∧ empty4.resetSeen = true := by
  unfold State.CursorsInRange; decide

theorem witness_PushpopRule :
    full4.CursorsInRange ∧ runs (.pushpop 5) full4 ∧ full4.resetSeen = true ∧
    (∃ u v, exec .pop full4 = .next u ∧ exec (.push 5) u = .next v) ∧
    c0.CursorsInRange ∧ c0.wr.idx ≠ c0.rd.idx ∧ runs (.pushpop 5) c0 ∧
    (∃ u v, exec (.push 5) c0 = .next u ∧ exec .pop u = .next v) ∧
    Presents full4.config (Sample.ofWord (cfg 4) 0x0C14) 0b00011#5 0b11011#5 ∧
    Presents full4.config (Sample.ofWord (cfg 4) 0x1C14) 0b00011#5 0b11011#5 ∧
    (Sample.ofWord (cfg 4) 0x1C14).pushByte = .ok 5 :=
  ⟨by unfold State.CursorsInRange; decide, ⟨_, rfl⟩, rfl, ⟨_, _, rfl, rfl⟩, by unfold State.CursorsInRange; decide,
    by decide, ⟨_, rfl⟩, ⟨_, _, rfl, rfl⟩, by unfold Presents; decide, by unfold Presents; decide, by decide⟩

theorem witness_PeekRule :
    3 < full4.cap ∧ (∃ t u, exec (.peek 3) full4 = .next t ∧ exec (.peek 3) t = .next u) ∧
    (3 ≠ full4.wr.idx ∧ restarts (.push 9) = false ∧
      ∃ t u v, exec (.peek 3) full4 = .next t ∧ exec (.push 9) t = .next u ∧ exec (.peek 3) u = .next v) ∧
    full4.CursorsInRange ∧ runs (.peek full4.rd.idx) full4 ∧ runs .pop full4 ∧
    Presents full4.config (Sample.ofWord (cfg 4) 0x1003) 0b00100#5 0b11111#5 ∧ (Sample.ofWord (cfg 4) 0x1003).peekIndex = .ok 3 :=
  ⟨by decide, ⟨_, _, rfl, rfl⟩, ⟨by decide, rfl, _, _, _, rfl, rfl, rfl⟩, by unfold State.CursorsInRange; decide, ⟨_, rfl⟩,
    ⟨_, rfl⟩, by unfold Presents; decide, by decide⟩

theorem witness_PeekOutOfRange :
    (blk 5 [] (0, false) (0, false)).cap ≤ 5 ∧ runs (.peekpush 5 1) (blk 5 [] (0, false) (0, false)) ∧
    runs (.push 1) (blk 5 [] (0, false) (0, false)) ∧ (blk 5 [] (0, false) (0, false)).resetSeen = true :=
  ⟨by decide, ⟨_, rfl⟩, ⟨_, rfl⟩, rfl⟩

theorem witness_PeekpushRule :
    c0.CursorsInRange ∧ runs (.peekpush 3 1) c0 ∧ runs (.push 1) c0 ∧ c0.Inv ∧ 3 < c0.cap ∧ 3 = c0.wr.idx ∧
    (∃ t u, exec (.peekpush 3 1) c0 = .next t ∧ exec (.peek 3) t = .next u) ∧
    Presents c0.config (Sample.ofWord (cfg 4) 0x1507) 0b00101#5 0b11111#5 ∧
    (Sample.ofWord (cfg 4) 0x1507).peekIndex = .ok 3 ∧ (Sample.ofWord (cfg 4) 0x1507).pushByte = .ok 0x41 :=
  ⟨by unfold State.CursorsInRange; decide, ⟨_, rfl⟩, ⟨_, rfl⟩, by unfold State.Inv State.CursorsInRange; decide,
    by decide, rfl, ⟨_, _, rfl, rfl⟩, by unfold Presents; decide, by decide, by decide⟩

theorem witness_PeekWithPopIsDropped :
    Presents full4.config (Sample.ofWord (cfg 4) 0x1803) 0b00110#5 0b11111#5 ∧
    Presents full4.config (Sample.ofWord (cfg 4) 0x1C17) 0b00111#5 0b11111#5 ∧
    (Sample.ofWord (cfg 4) 0x1C17).pushByte = .ok 5 ∧
    (∃ t, step (onPins full4 0x1803) = .next t) ∧ (∃ t, step (onPins full4 0x1C17) = .next t) :=
  ⟨by unfold Presents; decide, by unfold Presents; decide, by decide, ⟨_, rfl⟩, ⟨_, rfl⟩⟩

/-- Two states with one array and other cursors, and a peek after CLEAR. -/
theorem witness_PeeksNeverConsultTheCursors :
    runs (.peek 2) c0 ∧ runs (.peek 2) { c0 with wr := ⟨0, false⟩, rd := ⟨2, true⟩ } ∧
    runs (.peekpush 2 1) c0 ∧ runs (.push 1) c0 ∧
    (∃ t u, exec .clear c0 = .next t ∧ exec (.peek 3) t = .next u) ∧ 3 < c0.cap :=
  ⟨⟨_, rfl⟩, ⟨_, rfl⟩, ⟨_, rfl⟩, ⟨_, rfl⟩, ⟨_, _, rfl, rfl⟩, by decide⟩

theorem witness_RegisterCommandsFrame : runs .nop c0 ∧ runs .pop c0 ∧ runs (.peek 3) c0 ∧
    peekIndex? .pop = none ∧ Instr.nop ≠ .pop := ⟨⟨_, rfl⟩, ⟨_, rfl⟩, ⟨_, rfl⟩, rfl, by decide⟩

theorem witness_StoringCommandsFrame :
    runs (.push 1) c0 ∧ runs (.pushpop 1) c0 ∧ runs (.peekpush 3 1) c0 ∧ c0.pushSlot = 3 ∧ (2 : Nat) ≠ 3 ∧ c0.Inv ∧
    includesPop (.push 1) = false ∧ peekIndex? (.push 1) = none :=
  ⟨⟨_, rfl⟩, ⟨_, rfl⟩, ⟨_, rfl⟩, rfl, by decide, by unfold State.Inv State.CursorsInRange; decide, rfl, rfl⟩

theorem witness_ClearingCommandsFrame : runs .reset c0 ∧ runs .clear c0 := ⟨⟨_, rfl⟩, ⟨_, rfl⟩⟩

/-- A fetched command of each clause: RESET, CLEAR, POP, PEEK of the last slot, NOP. -/
theorem witness_OutputRegistersHoldTheLastRead :
    ∀ p ∈ [(0x4000, Instr.reset), (0x2000, .clear), (0x0800, .pop), (0x1003, .peek 3), (0x0000, .nop)],
      (match (onPins c0 p.1).fetch with | .ok (i, _) => decide (i = p.2) | .error _ => false) = true ∧
      seen (fun _ => true) (onPins c0 p.1) = some true := by decide

/-- A push at the last slot, a pop at the last slot, and CLEAR. -/
theorem witness_LapBitsToggleOnlyOnWrap :
    (c0.CursorsInRange ∧ c0.wr.idx = c0.cap - 1) ∧ seen (fun _ => true) (onPins c0 0x0404) = some true ∧
    (blk 4 [] (1, true) (3, false)).CursorsInRange ∧ seen (fun _ => true) (onPins (blk 4 [] (1, true) (3, false)) 0x0800) = some true ∧
    seen (fun _ => true) (onPins c0 0x2000) = some true := by
  unfold State.CursorsInRange; decide

/-- A push that changes its slot, and RESET. -/
theorem witness_SlotsChangeOnlyByAPushToThem :
    c0.Inv ∧ decode c0.config (Sample.ofWord c0.config 0x0404) = .ok (.push 1) ∧
    seen (fun t => Memory.read t.storage 3) (onPins c0 0x0404) = some 1 ∧ Memory.read c0.storage 3 = 0 ∧
    seen (fun _ => true) (onPins c0 0x4000) = some true := by
  unfold State.Inv State.CursorsInRange; decide

theorem witness_FlagsNameTheOccupancy : full4.CursorsInRange ∧ full4.full = true ∧
    empty4.CursorsInRange ∧ empty4.full = false ∧ c0.CursorsInRange ∧ c0.empty = false := by
  unfold State.CursorsInRange; decide

theorem witness_ViolationsAreRaisedByCause :
    full4.CursorsInRange ∧ runs (.push 5) full4 ∧ empty4.CursorsInRange ∧ runs .pop empty4 ∧
    (blk 5 [] (2, true) (2, false)).CursorsInRange ∧ runs (.peekpush 6 1) (blk 5 [] (2, true) (2, false)) ∧
    { c0 with resetSeen := false }.CursorsInRange ∧ runs .clear { c0 with resetSeen := false } :=
  ⟨by unfold State.CursorsInRange; decide, ⟨_, rfl⟩, by unfold State.CursorsInRange; decide, ⟨_, rfl⟩,
    by unfold State.CursorsInRange; decide, ⟨_, rfl⟩, by unfold State.CursorsInRange; decide, ⟨_, rfl⟩⟩

theorem witness_ViolationsChangeNoHardware :
    full4.hw = { full4 with resetSeen := false, edge := 7, violations := [⟨1, .underflow 0⟩] }.hw ∧
    full4.draws = { full4 with resetSeen := false, edge := 7, violations := [⟨1, .underflow 0⟩] }.draws ∧
    runs (.push 5) full4 := ⟨rfl, rfl, ⟨_, rfl⟩⟩

theorem witness_ViolationLogOnlyGrows : ∃ t, Sys2Proof.core.run 1 (onPins full4 0x0414) = .next t := ⟨_, rfl⟩

theorem witness_DutiesDecideTheLog : full4.CursorsInRange := by unfold State.CursorsInRange; decide

theorem witness_ReadBeforeWrite :
    full4.Inv ∧ runs (.pushpop 5) full4 ∧ 0 < full4.cap ∧ runs (.peekpush 0 5) full4 :=
  ⟨by unfold State.Inv State.CursorsInRange; decide, ⟨_, rfl⟩, by decide, ⟨_, rfl⟩⟩

theorem witness_PushedByteIsReadableNextEdge :
    runs (.pushpop 1) full4 ∧ runs (.pushpop 2) full4 ∧ runs (.peekpush 0 1) full4 ∧ runs (.peekpush 0 2) full4 ∧
    empty4.Inv ∧ empty4.occ = 0 ∧ (∃ t u, exec (.push 9) empty4 = .next t ∧ exec .pop t = .next u) :=
  ⟨⟨_, rfl⟩, ⟨_, rfl⟩, ⟨_, rfl⟩, ⟨_, rfl⟩, by unfold State.Inv State.CursorsInRange; decide, by decide, ⟨_, _, rfl, rfl⟩⟩

theorem witness_ArrayReadAfterWrite :
    (Memory.wf 4 [(0, 1), (3, 4)] ∧ 3 < 4) ∧ Memory.wf 4 full4.storage ∧
    (∀ a, a < 4 → Memory.read full4.storage a = Memory.read full4.storage a) := by decide

/-- A step, and a power-up state whose first edge completes. -/
theorem witness_EveryStepKeepsTheInvariant : full4.Inv ∧ (∃ t, step (onPins full4 0x0414) = .next t) ∧
    ∃ t, Sys2Proof.core.run 1 { State.powerUp (cfg 4) ⟨fun _ => 7, 9, 2, true, false, 1, 2⟩ with
      inputs := [Sample.ofWord (cfg 4) 0x0414] } = .next t :=
  ⟨by unfold State.Inv State.CursorsInRange; decide, ⟨_, rfl⟩, _, rfl⟩

theorem witness_NoEdgeEverStops :
    State.Inv (onPins full4 0x0414) ∧ 1 ≤ (onPins full4 0x0414).inputs.length ∧
    (∀ x ∈ (onPins full4 0x0414).inputs, decode full4.config x = .ok (.push 5)) := by
  unfold State.Inv State.CursorsInRange; decide

/-- Every kind of port use: a write with a read, a clear, a read that captures nothing. -/
theorem witness_CommandsRefineTheArrayPorts :
    runs (.pushpop 5) full4 ∧ (full4.ports (.pushpop 5)).captured 4 full4.storage = some (.popData, 1) ∧
    runs .reset full4 ∧ (∀ b, (full4.ports .reset).captured 4 full4.storage ≠ some (.popData, b)) ∧
    runs (.peek 5) (blk 5 [] (0, false) (0, false)) ∧
    (∀ b, ((blk 5 [] (0, false) (0, false)).ports (.peek 5)).captured 5 [] ≠ some (.peekData, b)) :=
  ⟨⟨_, rfl⟩, rfl, ⟨_, rfl⟩, (fun _ h => nomatch h), ⟨_, rfl⟩, (fun _ h => nomatch h)⟩

/-- PUSHPOP at full: no record, and both a pop and a push. -/
theorem witness_BlockRefinesAQueue :
    full4.Inv ∧ full4.occ ≤ full4.cap ∧ (∃ t, exec (.pushpop 5) full4 = .next t ∧ t.violations = full4.violations) ∧
    includesPop (.pushpop 5) = true :=
  ⟨by unfold State.Inv State.CursorsInRange; decide, by decide, ⟨_, rfl, rfl⟩, rfl⟩

theorem witness_FifoOrder :
    State.Inv (full4.presenting [.pushpop 5, .pop]) ∧
    (full4.presenting [.pushpop 5, .pop]).occ ≤ (full4.presenting [.pushpop 5, .pop]).cap ∧
    (queueRun 2 (full4.presenting [.pushpop 5, .pop])).map (fun r => (r.pushed, r.popped, r.final.violations))
      = some ([5], [1, 2], []) := by
  unfold State.Inv State.CursorsInRange; decide

theorem witness_PseudoCommandsExpand : 7 < 2 ^ (cfg 5).width := by decide

theorem witness_ListingLiteralsAreRangeChecked :
    256 ≤ 256 ∧ 255 < 256 ∧ 2 ^ (cfg 5).width ≤ 8 ∧ Instr.wellFormed (cfg 5) (.peek 7) = true := by decide

theorem witness_TableRowsRunAfterReset : (⟨.peekpush, 0b00101#5, 0b11111#5⟩ : TableRow) ∈ commandTable := by decide

/-- Both sides hold of a CLEAR among unknown pins and of a PEEKPUSH; neither of an unknown `rst`. -/
theorem witness_CommandsDecodeByTheirTableRow :
    decode (cfg 4) (hazy .low .high .unknown .undriven .unknown) = .ok .clear ∧
    Presents (cfg 4) (hazy .low .high .unknown .undriven .unknown) 0b01000#5 0b11000#5 ∧
    decode (cfg 5) (Sample.ofWord (cfg 5) 0x2B36) = .ok (.peekpush 6 0x66) ∧
    Presents (cfg 5) (Sample.ofWord (cfg 5) 0x2B36) 0b00101#5 0b11111#5 ∧
    ¬Presents (cfg 4) (hazy .unknown .high .low .low .low) 0b10000#5 0b10000#5 := by
  unfold Presents; decide

end Sys2Proof.Tests
end

/-! ## The capacity and the index width (R3, R5)

The parameters of a block: no edge changes the configuration, and the width of the index port. -/

namespace Sys2Proof

/-- The width of a block whose capacity is known (R5). -/
theorem Config.width_of_cap {c : Config} {n : Nat} (h : c.cap = n) : c.width = max 1 (clog2 n) :=
  congrArg (fun k => max 1 (clog2 k)) h

theorem Config.lt_two_pow_width {c : Config} {idx : Nat} (h : idx < c.cap) : idx < 2 ^ c.width :=
  Nat.lt_of_lt_of_le h c.cap_le_two_pow_width

/-- A sample decodes only with `W` pins of `peek_addr` (R44). -/
theorem decode_peekAddr_length {c : Config} {x : Sample} {i : Instr} (h : decode c x = .ok i) :
    x.consumer.peekAddr.length = c.width := by
  obtain ⟨-, hwidths, -, -⟩ := decode_ok h
  exact (Sample.checkWidths_ok.mp hwidths).2

namespace Machine

variable {s t : State}

theorem State.fetch_config {i : Instr} {u : State} (h : s.fetch = .ok (i, u)) : u.config = s.config :=
  congrArg Hardware.config (State.fetch_frame h).1

theorem exec_config {i : Instr} (h : exec i s = .next t) : t.config = s.config := by
  obtain ⟨-, rfl⟩ := (exec_next i).mp h
  exact afterCommand_config i s

theorem step_config (h : step s = .next t) : t.config = s.config := by
  obtain ⟨i, u, hfetch, hexec⟩ := step_next.mp h
  exact (exec_config hexec).trans (State.fetch_config hfetch)

theorem step_cap (h : step s = .next t) : t.cap = s.cap :=
  congrArg Config.cap (step_config h)

end Machine

open Machine

/-- Settles O2: the width of the port is what `decode` enforces, and the rest is the leastness of `clog2`. -/
theorem indexWidthIsLeast : Obligations.IndexWidthIsLeast := by
  refine ⟨fun n => ⟨le_two_pow_clog2 n, fun _ => clog2_le⟩, fun _ => rfl, fun _ _ _ => decode_peekAddr_length,
    fun _ _ => Config.lt_two_pow_width, fun c => ⟨fun h => ?_, fun h => ?_, fun h => ?_⟩⟩ <;>
  · rw [Config.width_of_cap h]
    decide

/-- Settles O1: the fetch and the command it runs both keep the configuration, and `CAP` is computed from it. -/
theorem capacityIsFixedForLife : Obligations.CapacityIsFixedForLife :=
  ⟨fun c => ⟨rfl, c.cap_pos⟩, fun _ _ h => ⟨step_config h, step_cap h⟩⟩

end Sys2Proof

/-! ## The registers and the invariant across an edge (R15, R16, R18, R20)

One inversion of the step, each register after an edge in terms of the state before it, and the invariant, which every
edge keeps. -/

namespace Sys2Proof

namespace Machine

variable {s t u : State} {i : Instr}

/-! ### The edge as the effect of its command -/

theorem State.fetch_eq_atEdge (h : s.fetch = .ok (i, u)) : ∃ rest, u = s.atEdge rest := by
  obtain ⟨-, rest, -, -, rfl⟩ := State.fetch_ok.mp h
  exact ⟨rest, rfl⟩

/-- What an edge does, said once: its command's effect on the state with the sample taken and the edge counted (R10, R11). -/
theorem step_eq_afterCommand (hfetch : s.fetch = .ok (i, u)) (hstep : step s = .next t) :
    ∃ rest, t = afterCommand i (s.atEdge rest) := by
  obtain ⟨j, v, hj, hexec⟩ := step_next.mp hstep
  cases hfetch.symm.trans hj
  obtain ⟨rest, rfl⟩ := State.fetch_eq_atEdge hfetch
  exact ⟨rest, ((exec_next i).mp hexec).2.symm⟩

section Fields

variable (hfetch : s.fetch = .ok (i, u)) (hstep : step s = .next t)
include hfetch hstep

theorem step_wr : t.wr =
    if restarts i then Cursor.start else if pushedBytes i = [] then s.wr else s.wr.adv s.cap := by
  obtain ⟨rest, rfl⟩ := step_eq_afterCommand hfetch hstep
  exact afterCommand_wr i _

theorem step_rd : t.rd =
    if restarts i then Cursor.start else if includesPop i then s.rd.adv s.cap else s.rd := by
  obtain ⟨rest, rfl⟩ := step_eq_afterCommand hfetch hstep
  exact afterCommand_rd i _

theorem step_popData : t.popData =
    if i = .reset then 0x00#8 else if includesPop i then Memory.read s.storage s.rd.idx else s.popData := by
  obtain ⟨rest, rfl⟩ := step_eq_afterCommand hfetch hstep
  exact afterCommand_popData i _

theorem step_peekData_of_reset (hi : i = .reset) : t.peekData = 0x00#8 := by
  obtain ⟨rest, rfl⟩ := step_eq_afterCommand hfetch hstep
  rw [afterCommand_peekData, if_pos hi]

theorem step_peekData_of_peek {a : Nat} (hi : peekIndex? i = some a) (ha : a < s.cap) :
    t.peekData = Memory.read s.storage a := by
  obtain ⟨rest, rfl⟩ := step_eq_afterCommand hfetch hstep
  have hne : i ≠ .reset := by rintro rfl; cases hi
  rw [afterCommand_peekData, if_neg hne, hi]
  exact if_pos ha

theorem step_peekData_of_no_peek (hi : peekIndex? i = none) (hne : i ≠ .reset) : t.peekData = s.peekData := by
  obtain ⟨rest, rfl⟩ := step_eq_afterCommand hfetch hstep
  rw [afterCommand_peekData, if_neg hne, hi]
  rfl

end Fields

/-! ### The lap bits -/

/-- An advance toggles the lap bit exactly when it wraps (R59), at `CAP = 1` too. -/
theorem Cursor.adv_lap_ne_iff {cap : Nat} {c : Cursor} :
    (c.adv cap).lap ≠ c.lap ↔ c.idx = cap - 1 ∧ (c.adv cap).idx = 0 := by
  by_cases hlast : c.idx = cap - 1
  · simp [Cursor.adv_of_last hlast, hlast]
  · simp [Cursor.adv_of_ne hlast, hlast]

theorem step_wr_lap_ne_iff (hfetch : s.fetch = .ok (i, u)) (hstep : step s = .next t) (hr : restarts i = false) :
    t.wr.lap ≠ s.wr.lap ↔ pushedBytes i ≠ [] ∧ s.wr.idx = s.cap - 1 ∧ t.wr.idx = 0 := by
  have hwr := step_wr hfetch hstep
  by_cases hpush : pushedBytes i = []
  · simp [hwr, hr, hpush]
  · simpa [hwr, hr, hpush] using Cursor.adv_lap_ne_iff

theorem step_rd_lap_ne_iff (hfetch : s.fetch = .ok (i, u)) (hstep : step s = .next t) (hr : restarts i = false) :
    t.rd.lap ≠ s.rd.lap ↔ includesPop i = true ∧ s.rd.idx = s.cap - 1 ∧ t.rd.idx = 0 := by
  have hrd := step_rd hfetch hstep
  by_cases hpop : includesPop i = true
  · simpa [hrd, hr, hpop] using Cursor.adv_lap_ne_iff
  · simp [hrd, hr, hpop]

/-! ### The invariant -/

theorem State.powerUp_inv (c : Config) (d : PowerUp) : (State.powerUp c d).Inv :=
  ⟨⟨Nat.mod_lt _ c.cap_pos, Nat.mod_lt _ c.cap_pos⟩, Memory.wf_ofSlots c.cap d.storage⟩

/-- The array after a command is cleared, written at a slot in range, or as it was: canonical each time. -/
theorem afterCommand_inv (h : s.Inv) : (afterCommand i s).Inv := by
  obtain ⟨hcursors, hwf⟩ := h
  refine ⟨afterCommand_inRange hcursors, ?_⟩
  rw [afterCommand_cap, afterCommand_storage]
  cases restarts i with
  | true => exact Memory.wf_nil s.cap
  | false =>
    cases pushedBytes i with
    | nil => exact hwf
    | cons d _ => exact Memory.wf_write hwf hcursors.1

theorem step_inv (h : s.Inv) (hstep : step s = .next t) : t.Inv := by
  obtain ⟨i, u, hfetch, -⟩ := step_next.mp hstep
  obtain ⟨rest, rfl⟩ := step_eq_afterCommand hfetch hstep
  exact afterCommand_inv (s := s.atEdge rest) h

/-- The induction over the edges of a run, made once. -/
theorem run_inv {k : Nat} (h : s.Inv) (hrun : Sys2Proof.core.run k s = .next t) : t.Inv := by
  induction k generalizing s with
  | zero => cases hrun; exact h
  | succ k ih =>
    rw [core_run_succ] at hrun
    cases hstep : step s with
    | next s' => exact ih (step_inv h hstep) (by simpa only [hstep] using hrun)
    | fault f => simp only [hstep, reduceCtorEq] at hrun
    | refused r => simp only [hstep, reduceCtorEq] at hrun

end Machine

open Machine

/-- Settles O51: one edge keeps the invariant, power-up meets it (the presented samples are no part of it), and a run is an
induction over its edges. -/
theorem everyStepKeepsTheInvariant : Obligations.EveryStepKeepsTheInvariant :=
  ⟨fun _ _ => step_inv, fun c d _ xs _ =>
    run_inv (s := { State.powerUp c d with inputs := xs }) (State.powerUp_inv c d)⟩

/-- Settles O24: the advance is a successor on the ring of `2*CAP` places. -/
theorem extendedPointerAdvances : Obligations.ExtendedPointerAdvances :=
  fun _ _ h => ⟨rfl, Cursor.ext_lt h, Cursor.adv_ext h⟩

/-- Settles O39: each clause is the branch of the register's own equation that the command selects. -/
theorem outputRegistersHoldTheLastRead : Obligations.OutputRegistersHoldTheLastRead := by
  intro i s u t hfetch hstep
  have hpopData := step_popData hfetch hstep
  refine ⟨?reset, ?clear, ?pop, ?noPop, fun _ => step_peekData_of_peek hfetch hstep,
    step_peekData_of_no_peek hfetch hstep⟩
  case reset => exact fun hi => ⟨by rw [hpopData, if_pos hi]; rfl, step_peekData_of_reset hfetch hstep hi⟩
  case clear => rintro rfl; exact ⟨hpopData, step_peekData_of_no_peek hfetch hstep rfl (by decide)⟩
  case pop =>
    intro hpop
    have hne : i ≠ .reset := by rintro rfl; cases hpop
    rw [hpopData, if_neg hne, if_pos hpop]
  case noPop =>
    intro hpop hne
    rw [hpopData, if_neg hne, hpop]
    rfl

/-- Settles O40: CLEAR and RESET put both cursors at their start, and any other command leaves a cursor or advances it. -/
theorem lapBitsToggleOnlyOnWrap : Obligations.LapBitsToggleOnlyOnWrap := by
  intro i s u t _ hfetch hstep
  refine ⟨fun hr => ?restart, fun hr =>
    ⟨step_wr_lap_ne_iff hfetch hstep hr, step_rd_lap_ne_iff hfetch hstep hr⟩⟩
  case restart =>
    rw [step_wr hfetch hstep, step_rd hfetch hstep, if_pos hr, if_pos hr]
    exact ⟨rfl, rfl⟩

end Sys2Proof

/-! ## Read before write (R31)

What a command that reads and writes at one edge puts on its output register, and what it leaves in the slot of the write
cursor. -/

namespace Sys2Proof

namespace Machine

variable {s : State} {i : Instr}

theorem afterCommand_popData_of_pop (hpop : includesPop i = true) :
    (afterCommand i s).popData = Memory.read s.storage s.rd.idx := by
  have hne : i ≠ .reset := by rintro rfl; cases hpop
  rw [afterCommand_popData, if_neg hne, if_pos hpop]

theorem afterCommand_peekData_of_peek {a : Nat} (hpeek : peekIndex? i = some a) (ha : a < s.cap) :
    (afterCommand i s).peekData = Memory.read s.storage a := by
  have hne : i ≠ .reset := by rintro rfl; cases hpeek
  rw [afterCommand_peekData, if_neg hne, hpeek]
  exact if_pos ha

theorem read_afterCommand_pushed {d : Byte} (h : s.Inv) (hpush : pushedBytes i = [d]) (hr : restarts i = false) :
    Memory.read (afterCommand i s).storage s.wr.idx = d :=
  (read_afterCommand_push h hpush hr s.wr.idx).trans (if_pos rfl)

end Machine

open Machine

/-- Settles O47: both registers take their byte from the array before the edge, whatever slot the write cursor names, and a
canonical array reads back the byte pushed. -/
theorem readBeforeWrite : Obligations.ReadBeforeWrite := by
  refine ⟨?pushpop, ?peekpush⟩
  case pushpop =>
    intro d s t hinv hexec
    obtain ⟨-, rfl⟩ := (exec_next _).mp hexec
    exact ⟨afterCommand_popData_of_pop rfl, read_afterCommand_pushed hinv rfl rfl⟩
  case peekpush =>
    intro a d s t hinv ha hexec
    obtain ⟨-, rfl⟩ := (exec_next _).mp hexec
    exact ⟨afterCommand_peekData_of_peek rfl ha, read_afterCommand_pushed hinv rfl rfl⟩

end Sys2Proof

/-! ## The decode of R47, the command word of R50 and the pseudo-commands of R54

Which instruction a command name stands for, what the request bits of a sample with known control pins give, where the
fields of the command word stand, and what a well-formed instruction of a listing assembles to. -/

namespace Sys2Proof

variable {i : Instr}

/-! ### The instruction that a command names -/

@[simp] theorem Instr.command_eq_reset : i.command = .reset ↔ i = .reset := by cases i <;> simp [Instr.command]

@[simp] theorem Instr.command_eq_clear : i.command = .clear ↔ i = .clear := by cases i <;> simp [Instr.command]

@[simp] theorem Instr.command_eq_nop : i.command = .nop ↔ i = .nop := by cases i <;> simp [Instr.command]

@[simp] theorem Instr.command_eq_push : i.command = .push ↔ ∃ d, i = .push d := by cases i <;> simp [Instr.command]

@[simp] theorem Instr.command_eq_pop : i.command = .pop ↔ i = .pop := by cases i <;> simp [Instr.command]

@[simp] theorem Instr.command_eq_pushpop : i.command = .pushpop ↔ ∃ d, i = .pushpop d := by
  cases i <;> simp [Instr.command]

@[simp] theorem Instr.command_eq_peek : i.command = .peek ↔ ∃ a, i = .peek a := by cases i <;> simp [Instr.command]

@[simp] theorem Instr.command_eq_peekpush : i.command = .peekpush ↔ ∃ a d, i = .peekpush a d := by
  cases i <;> simp [Instr.command]

/-! ### The request bits -/

/-- A sample of known control pins decodes to a command of its control field (R45, R47). -/
theorem Machine.Presents.command_of_decode {c : Config} {x : Sample} {ctrl : BitVec 5}
    (hx : Presents c x ctrl 0b11111#5) (hdecode : decode c x = .ok i) : i.command = decodeCtrl ctrl := by
  obtain ⟨field, -, hfield, hoperands⟩ := decode_ok hdecode
  cases hx.ctrl_known.symm.trans hfield
  exact Command.withOperands_command hoperands

/-! ### The fields of the command word -/

theorem commandWord_top (c : Config) (ctrl : BitVec 5) (d : Byte) {a : Nat} (h : a < 2 ^ c.width) :
    commandWord c ctrl d a / 2 ^ (c.width + 8) = ctrl.toNat := by
  have := d.isLt
  rw [Nat.pow_add, ← Nat.div_div_eq_div_mul, commandWord_high c ctrl d h]
  omega

theorem Instr.dataField_of_no_push (h : Machine.pushedBytes i = []) : i.dataField = 0 := by
  cases i with
  | push d | pushpop d | peekpush a d => cases h
  | reset | clear | nop | pop | peek a => rfl

theorem Instr.addrField_of_no_peek (h : Machine.peekIndex? i = none) : i.addrField = 0 := by
  cases i with
  | peek a | peekpush a d => cases h
  | reset | clear | nop | push d | pop | pushpop d => rfl

/-! ### The instructions of a listing -/

theorem Machine.Instr.checked_of_wellFormed {c : Config} (h : i.wellFormed c = true) :
    Instr.checked c i = .ok [.edge i] := if_pos h

theorem Machine.Instr.checked_peek_of_lt_cap {c : Config} {a : Nat} (h : a < c.cap) :
    Instr.checked c (.peek a) = .ok [.edge (.peek a)] := checked_of_wellFormed (indexFits_of_lt_cap h)

open Machine

/-- Settles O4: the control field is taken apart into its bits, and the winner's own lemma gives the command. -/
theorem decodePriority : Obligations.DecodePriority := by
  intro c x ctrl i hx hdecode
  have hcommand := hx.command_of_decode hdecode
  rw [← ctrlField_bits ctrl] at hcommand
  generalize ctrl.getLsbD 4 = rst, ctrl.getLsbD 3 = clr, ctrl.getLsbD 2 = peek, ctrl.getLsbD 1 = pop,
    ctrl.getLsbD 0 = push at hcommand ⊢
  refine ⟨?reset, ?clear, ?requests⟩
  case reset => rintro rfl; simpa using hcommand
  case clear => rintro rfl rfl; simpa using hcommand
  case requests =>
    rintro rfl rfl
    cases pop with
    | true => cases push <;> simpa using hcommand
    | false => cases peek <;> cases push <;> simpa using hcommand

/-- Settles O8: each field is read off the word by its own lemma, and an operand field of an instruction that does not use
it is 0. -/
theorem commandWordLayout : Obligations.CommandWordLayout := by
  refine ⟨fun c ctrl d a ha => ?fields, fun c i hi => ?encode, fun c hc => ?words⟩
  case fields =>
    have hbit (k : Nat) := commandWord_ctrl c ctrl d (k := k) ha
    exact ⟨commandWord_lt c ctrl d ha, hbit 4, hbit 3, hbit 2, hbit 1, hbit 0, commandWord_data c ctrl d ha,
      commandWord_addr c ctrl d ha⟩
  case encode =>
    have haddr := Instr.addrField_lt hi
    unfold encode
    refine ⟨commandWord_top c _ _ haddr, fun hpush => ?_, fun hpeek => ?_⟩
    · rw [commandWord_data c _ _ haddr, Instr.dataField_of_no_push hpush]
      rfl
    · rw [commandWord_addr c _ _ haddr, Instr.addrField_of_no_peek hpeek]
  case words =>
    have hwidth : c.width = 2 := (Config.width_of_cap hc).trans (by decide)
    unfold encode commandWord
    rw [hwidth]
    decide

/-- Settles O56: slots 0 and `CAP - 1` are indices of the port, and the rest is each pseudo-command's own equation. -/
theorem pseudoCommandsExpand : Obligations.PseudoCommandsExpand := by
  intro c
  have hcap := c.cap_pos
  refine ⟨Instr.checked_peek_of_lt_cap hcap, Instr.checked_peek_of_lt_cap (Nat.sub_one_lt_of_lt hcap),
    fun a ha => Instr.checked_of_wellFormed (decide_eq_true ha), rfl, fun s => ⟨.readEmpty, rfl, rfl, rfl⟩,
    fun s => ⟨.readFull, rfl, rfl, rfl⟩, fun k => ⟨rfl, rfl⟩, rfl⟩

end Sys2Proof

/-! ## NOP, RESET edges in a row and Construct (R57, R58)

What an edge does with the command presented for it, and what a run of RESET edges leaves of the state it began in. -/

namespace Sys2Proof

namespace Machine

variable {s : State} {i : Instr}

/-! ### The record of a command that raises nothing -/

theorem State.raised_nil (s : State) (k : Command) :
    s.raised k [] = if s.resetSeen then [] else [⟨s.edge, .noReset k⟩] := by
  unfold State.raised
  split <;> rfl

/-! ### An edge runs the command presented for it -/

theorem step_of_decode {x : Sample} {rest : List Sample} (hinputs : s.inputs = x :: rest)
    (hdecode : decode s.config x = .ok i) : step s = exec i (s.atEdge rest) := by
  unfold step
  rw [State.fetch_ok.mpr ⟨x, rest, hinputs, hdecode, rfl⟩]
  rfl

theorem step_presenting_cons {is : List Instr} (h : i.wellFormed s.config = true) :
    step (s.presenting (i :: is)) = exec i ({ s with edge := s.edge + 1 }.presenting is) := by
  have hfetch : (s.presenting (i :: is)).fetch = .ok (i, { s with edge := s.edge + 1 }.presenting is) :=
    State.fetch_ofInstr (s := s.presenting (i :: is)) h
  unfold step
  rw [hfetch]

/-! ### RESET edges -/

theorem step_presenting_reset (s : State) (is : List Instr) :
    step (s.presenting (.reset :: is)) =
      .next ((afterCommand .reset { s with edge := s.edge + 1 }).presenting is) :=
  step_presenting_cons rfl

/-- A second RESET finds everything zero already, so a row of them is one RESET at the last edge (R55). -/
theorem run_presenting_resets (s : State) (n : Nat) :
    Sys2Proof.core.run (n + 1) (s.presenting (List.replicate (n + 1) .reset)) =
      .next (afterCommand .reset { s with edge := s.edge + (n + 1), inputs := [] }) := by
  induction n generalizing s with
  | zero =>
    rw [core_run_succ, List.replicate_succ, step_presenting_reset]
    rfl
  | succ n ih =>
    have hedge : s.edge + 1 + (n + 1) = s.edge + (n + 1 + 1) := by omega
    rw [core_run_succ, List.replicate_succ, step_presenting_reset, ← hedge]
    exact ih (afterCommand .reset { s with edge := s.edge + 1 })

/-- RESET keeps the log and the draw count, and at power-up nothing is recorded or drawn (R75, R88). -/
theorem afterCommand_reset_powerUp (c : Config) (d : PowerUp) (e : Nat) :
    afterCommand .reset { State.powerUp c d with edge := e, inputs := [] } = { State.resetWith c with edge := e } := rfl

/-! ### Elaboration -/

section Construct

variable {buildable : Nat → Bool} {req : Nat}

theorem elaborate_of_buildable (h : buildable (Config.cap { reqCapacity := req }) = true) :
    elaborate buildable req = .ok { reqCapacity := req } := if_pos h

theorem elaborate_of_not_buildable (h : buildable (Config.cap { reqCapacity := req }) = false) :
    elaborate buildable req = .error (.unbuildable (Config.cap { reqCapacity := req })) :=
  if_neg (ne_true_of_eq_false h)

theorem construct_of_buildable (d : PowerUp) (h : buildable (Config.cap { reqCapacity := req }) = true) :
    construct buildable d req = .ok (.next (State.resetWith { reqCapacity := req })) := by
  unfold construct
  rw [elaborate_of_buildable h]
  exact congrArg Except.ok (step_presenting_reset _ _)

theorem construct_of_not_buildable (d : PowerUp) (h : buildable (Config.cap { reqCapacity := req }) = false) :
    construct buildable d req = .error (.unbuildable (Config.cap { reqCapacity := req })) := by
  unfold construct
  rw [elaborate_of_not_buildable h]
  rfl

end Construct

end Machine

open Machine

/-- Settles O20: the RESET edges of a run from power-up act as their last one, and Construct makes one of them. -/
theorem constructGivesAnEmptyBlock : Obligations.ConstructGivesAnEmptyBlock := by
  refine ⟨fun _ d _ => construct_of_buildable d, fun _ d _ => construct_of_not_buildable d, fun c d n => ?resets,
    fun req => ⟨State.resetWith_empty _, State.resetWith_full _, fun _ => rfl, State.resetWith_cap _⟩⟩
  case resets =>
    have hedge : (State.powerUp c d).edge + (n + 1) = n + 1 := Nat.zero_add _
    rw [run_presenting_resets, hedge, afterCommand_reset_powerUp]

/-- Settles O19: NOP is the record of a command that raises nothing, and no output reads the log. -/
theorem nopRule : Obligations.NopRule := by
  refine ⟨fun s => ?effect, fun s t hexec => ?outputs, fun s x rest hinputs hx => ?pins⟩
  case effect =>
    rw [← State.raised_nil]
    rfl
  case outputs =>
    obtain ⟨-, rfl⟩ := (exec_next .nop).mp hexec
    rfl
  case pins =>
    have hrow : (⟨.nop, 0b00000#5, 0b11111#5⟩ : TableRow) ∈ commandTable := by decide
    exact step_of_decode hinputs (Presents.decode_row hrow hx)

end Sys2Proof

/-! ## The cursor advance and PUSH (R59, R61)

What an advance does to an index, which commands make one, and the record, the registers and the flags after a push. -/

namespace Sys2Proof

namespace Machine

variable {s : State}

/-! ### The advance as the index arithmetic -/

theorem Cursor.adv_idx_eq_inc (cap : Nat) (c : Cursor) : (c.adv cap).idx = inc cap c.idx := by
  unfold Cursor.adv inc
  split <;> rfl

/-! ### The flags as comparisons of the cursors -/

theorem State.empty_iff_idx (s : State) : s.empty = true ↔ s.wr.idx = s.rd.idx := beq_iff_eq

theorem State.full_iff_idx_lap (s : State) : s.full = true ↔ s.wr.idx = s.rd.idx ∧ s.wr.lap ≠ s.rd.lap := by
  simp [State.full]

/-! ### A push -/

/-- The record of a push without a pop (R61, R74), NO_RESET alone before the first RESET (R76). -/
theorem State.raised_overflows (s : State) (k : Command) : s.raised k s.overflows =
    if s.resetSeen then
      (if s.full then [⟨s.edge, .overflow s.wr.idx (Memory.read s.storage s.wr.idx)⟩] else [])
    else [⟨s.edge, .noReset k⟩] := by
  unfold State.raised State.overflows
  cases s.resetSeen with
  | false => rfl
  | true => cases s.full <;> rfl

/-- A push below occupancy `CAP` raises the occupancy by one, so it puts up both flags when it reaches `CAP` and neither
otherwise (R21, R22). -/
theorem afterCommand_push_flags (d : Byte) (h : s.CursorsInRange) (hroom : s.occ < s.cap) :
    ((afterCommand (.push d) s).full = true ↔ s.occ + 1 = s.cap) ∧
    ((afterCommand (.push d) s).empty = true ↔ s.occ + 1 = s.cap) := by
  have hocc : (afterCommand (.push d) s).occ = s.occ + 1 :=
    (afterCommand_occ h rfl).trans (Nat.mod_eq_of_lt (by omega))
  obtain ⟨hfull, hempty⟩ := State.flags_iff_occ (afterCommand_inRange (i := .push d) h)
  rw [hocc, afterCommand_cap] at hfull hempty
  exact ⟨hfull, hempty.trans (or_iff_right (Nat.succ_ne_zero s.occ))⟩

end Machine

open Machine

/-- Settles O23: an advance wraps or it does not, and the cursors after a command are its advances. -/
theorem cursorAdvanceWraps : Obligations.CursorAdvanceWraps := by
  refine ⟨fun cap c hc => ⟨Cursor.adv_idx hc, Cursor.adv_idx_eq_inc cap c, fun hlast => ?last, fun hne => ?inner⟩,
    fun c hc => ?one, fun i s t hexec hr => ?commands⟩
  case last =>
    rw [Cursor.adv_of_last hlast]
    exact ⟨rfl, rfl⟩
  case inner =>
    rw [Cursor.adv_of_ne hne]
    exact ⟨rfl, rfl⟩
  case one =>
    rw [Cursor.adv_of_last (Nat.lt_one_iff.mp hc)]
    exact ⟨rfl, rfl⟩
  case commands =>
    obtain ⟨-, rfl⟩ := (exec_next i).mp hexec
    rw [afterCommand_wr, afterCommand_rd, hr]
    exact ⟨rfl, rfl⟩

/-- Settles O26: with the cursors in range PUSH always completes, and its flags are the occupancy's after one more byte. -/
theorem pushRule : Obligations.PushRule := by
  refine ⟨fun d s h => ?effect, fun d s t h hexec => ?flags, fun s x rest d hinputs hx hd => ?pins⟩
  case effect =>
    rw [exec_of_inRange _ h, ← State.raised_overflows]
    rfl
  case flags =>
    obtain ⟨-, rfl⟩ := (exec_next _).mp hexec
    have hcap := s.cap_pos
    have hflags := afterCommand_push_flags d h
    refine ⟨State.empty_iff_idx _, State.full_iff_idx_lap _, fun hlast => ?_, fun hzero htwo => ?_, fun hzero hone => ?_⟩
    · exact (hflags (by omega)).1.mpr (by omega)
    · exact Bool.eq_false_iff.mpr (mt (hflags (by omega)).2.mp (by omega))
    · obtain ⟨hfull, hempty⟩ := hflags (by omega)
      exact ⟨hempty.mpr (by omega), hfull.mpr (by omega)⟩
  case pins =>
    have hrow : (⟨.push, 0b00001#5, 0b11111#5⟩ : TableRow) ∈ commandTable := by decide
    refine step_of_decode hinputs ((Presents.decode_row hrow hx).trans ?_)
    simp only [Command.withOperands, hd]
    rfl

end Sys2Proof

/-! ## PEEK and PEEKPUSH (R66 to R69)

What a command with a peek leaves, as one record update; when an index beyond the array fits its port; and what of a command
without a peek could show one. -/

namespace Sys2Proof

/-! ### Indices of the port beyond the array -/

/-- The port carries exactly the indices of slots when `CAP` is a power of two other than 1 (R49). -/
theorem Config.cap_eq_two_pow_width_iff (c : Config) : c.cap = 2 ^ c.width ↔ c.cap ≠ 1 ∧ ∃ k, c.cap = 2 ^ k := by
  constructor
  · intro hcap
    have hwidth : 2 ^ 1 ≤ 2 ^ c.width := Nat.pow_le_pow_right (by omega) (Nat.le_max_left 1 _)
    exact ⟨by omega, c.width, hcap⟩
  · rintro ⟨hone, k, hk⟩
    have hpos : 1 ≤ k := Nat.one_le_iff_ne_zero.mpr fun hzero => hone (by rw [hk, hzero, Nat.pow_zero])
    have hwidth : c.width ≤ k := Nat.max_le.mpr ⟨hpos, clog2_le hk.le⟩
    exact Nat.le_antisymm c.cap_le_two_pow_width (hk ▸ Nat.pow_le_pow_right (by omega) hwidth)

theorem Config.exists_index_beyond_cap_iff (c : Config) :
    (∃ a, c.cap ≤ a ∧ a < 2 ^ c.width) ↔ c.cap = 1 ∨ ¬∃ k, c.cap = 2 ^ k := by
  have hle := c.cap_le_two_pow_width
  calc (∃ a, c.cap ≤ a ∧ a < 2 ^ c.width)
    _ ↔ ¬c.cap = 2 ^ c.width :=
      ⟨fun ⟨a, hcap, ha⟩ => by omega, fun hne => ⟨c.cap, Nat.le_refl _, Nat.lt_of_le_of_ne hle hne⟩⟩
    _ ↔ c.cap = 1 ∨ ¬∃ k, c.cap = 2 ^ k := by
      rw [c.cap_eq_two_pow_width_iff, not_and_or, not_not]

/-! ### The operands of the commands with a peek or a pop -/

section Operands

variable {x : Sample} {a : Nat} {d : Byte}

theorem Command.withOperands_pushpop (hd : x.pushByte = .ok d) :
    Command.withOperands .pushpop x = .ok (.pushpop d) := by
  simp only [Command.withOperands, hd]
  rfl

theorem Command.withOperands_peek (ha : x.peekIndex = .ok a) : Command.withOperands .peek x = .ok (.peek a) := by
  simp only [Command.withOperands, ha]
  rfl

theorem Command.withOperands_peekpush (ha : x.peekIndex = .ok a) (hd : x.pushByte = .ok d) :
    Command.withOperands .peekpush x = .ok (.peekpush a d) := by
  simp only [Command.withOperands, ha, hd]
  rfl

end Operands

namespace Machine

variable {s : State} {i : Instr} {a : Nat}

/-! ### The effect of a peek -/

/-- R66 and R67 as one update. -/
theorem State.peekByte_eq (s : State) (a : Nat) : s.peekByte a = { s with
    peekData := if a < s.cap then Memory.read s.storage a else Config.peekOobValue s.draws
    draws := if a < s.cap then s.draws else s.draws + 1 } := by
  unfold State.peekByte State.peekInRange
  by_cases ha : a < s.cap <;> simp [ha]

theorem State.peekRanges_eq (s : State) (a : Nat) :
    s.peekRanges a = if a < s.cap then [] else [.peekRange a] := by
  simp [State.peekRanges, State.peekInRange]

theorem State.raised_of_reset (hreset : s.resetSeen = true) (k : Command) (vs : List Violation) :
    s.raised k vs = vs.map (Record.mk s.edge) := by
  unfold State.raised
  rw [if_pos hreset]

theorem State.raised_of_no_reset (hreset : s.resetSeen = false) (k : Command) (vs : List Violation) :
    s.raised k vs = [⟨s.edge, .noReset k⟩] := by
  unfold State.raised
  rw [hreset]
  rfl

theorem State.raised_peekRanges (s : State) (k : Command) (a : Nat) : s.raised k (s.peekRanges a) =
    if s.resetSeen then (if a < s.cap then [] else [⟨s.edge, .peekRange a⟩]) else [⟨s.edge, .noReset k⟩] := by
  cases hreset : s.resetSeen with
  | false => exact State.raised_of_no_reset hreset k _
  | true =>
    rw [State.raised_of_reset hreset, State.peekRanges_eq, apply_ite (List.map _)]
    rfl

/-- The records of a push with a peek: those of the push, then those of the peek (R76). -/
theorem State.raised_overflows_peekRanges (s : State) (k : Command) (a : Nat) :
    s.raised k (s.overflows ++ s.peekRanges a) =
    if s.resetSeen then
      (if s.full then [⟨s.edge, .overflow s.wr.idx (Memory.read s.storage s.wr.idx)⟩] else []) ++
      (if a < s.cap then [] else [⟨s.edge, .peekRange a⟩])
    else [⟨s.edge, .noReset k⟩] := by
  cases hreset : s.resetSeen with
  | false => exact State.raised_of_no_reset hreset k _
  | true =>
    have happend : s.raised k (s.overflows ++ s.peekRanges a) = s.raised k s.overflows ++ s.raised k (s.peekRanges a) := by
      simp only [State.raised_of_reset hreset, List.map_append]
    rw [happend, State.raised_overflows, State.raised_peekRanges, hreset]
    rfl

theorem afterCommand_peek (a : Nat) (s : State) : afterCommand (.peek a) s = { s with
    peekData := if a < s.cap then Memory.read s.storage a else Config.peekOobValue s.draws
    draws := if a < s.cap then s.draws else s.draws + 1
    violations := s.violations ++
      (if s.resetSeen then (if a < s.cap then [] else [⟨s.edge, .peekRange a⟩])
       else [⟨s.edge, .noReset .peek⟩]) } := by
  rw [← State.raised_peekRanges]
  exact State.peekByte_eq _ a

theorem afterCommand_peekpush (a : Nat) (d : Byte) (s : State) : afterCommand (.peekpush a d) s = { s with
    peekData := if a < s.cap then Memory.read s.storage a else Config.peekOobValue s.draws
    draws := if a < s.cap then s.draws else s.draws + 1
    storage := Memory.write s.storage s.wr.idx d
    wr := s.wr.adv s.cap
    violations := s.violations ++
      (if s.resetSeen then
        (if s.full then [⟨s.edge, .overflow s.wr.idx (Memory.read s.storage s.wr.idx)⟩] else []) ++
        (if a < s.cap then [] else [⟨s.edge, .peekRange a⟩])
       else [⟨s.edge, .noReset .peekpush⟩]) } := by
  rw [← State.raised_overflows_peekRanges]
  exact congrArg (State.pushByte · d) (State.peekByte_eq _ a)

/-- PEEK reaches no slot by a cursor, so it completes from every state (R66). -/
theorem exec_peek (a : Nat) (s : State) : exec (.peek a) s = .next (afterCommand (.peek a) s) := rfl

/-- Of the hardware, a PEEKPUSH differs from the PUSH of its byte in `peek_data` alone (R68). -/
theorem afterCommand_peekpush_hw (a : Nat) (d : Byte) (s : State) : (afterCommand (.peekpush a d) s).hw =
    { (afterCommand (.push d) s).hw with peekData := (afterCommand (.peekpush a d) s).peekData } := by
  rw [afterCommand_peekpush]
  rfl

theorem afterCommand_push_violations (d : Byte) (s : State) :
    (afterCommand (.push d) s).violations = s.violations ++ s.raised .push s.overflows := rfl

theorem afterCommand_peekpush_violations (a : Nat) (d : Byte) (s : State) : (afterCommand (.peekpush a d) s).violations =
    s.violations ++ s.raised .peekpush (s.overflows ++ s.peekRanges a) := State.peekByte_violations _ a

/-- A peek in range reads the same array again after it has been made. -/
theorem afterCommand_peek_twice_hw (a : Nat) (s : State) (ha : a < s.cap) :
    (afterCommand (.peek a) (afterCommand (.peek a) s)).hw = (afterCommand (.peek a) s).hw := by
  rw [afterCommand_peek a s, afterCommand_peek]
  simp only [State.hw, State.cap] at ha ⊢
  simp only [ha, if_true]

/-! ### The slots a command leaves alone -/

/-- A slot reads as before after a command that neither clears the array nor pushes to it (R19). -/
theorem read_afterCommand_of_no_push_to (hr : restarts i = false) (ha : pushedBytes i = [] ∨ a ≠ s.wr.idx) :
    Memory.read (afterCommand i s).storage a = Memory.read s.storage a := by
  rw [afterCommand_storage, hr]
  cases hpush : pushedBytes i with
  | nil => rfl
  | cons d _ => exact Memory.read_write_other (ha.resolve_left (hpush ▸ List.cons_ne_nil _ _))

/-! ### A command without a peek -/

theorem State.violation_of_mem_raised {k : Command} {vs : List Violation} {r : Record} (h : r ∈ s.raised k vs) :
    r.violation ∈ vs ∨ r.violation = .noReset k := by
  cases hreset : s.resetSeen with
  | false =>
    rw [State.raised_of_no_reset hreset, List.mem_singleton] at h
    exact .inr (congrArg Record.violation h)
  | true =>
    rw [State.raised_of_reset hreset] at h
    obtain ⟨v, hv, rfl⟩ := List.mem_map.mp h
    exact .inl hv

theorem peekRange_notMem_raisedBy (hi : peekIndex? i = none) : .peekRange a ∉ raisedBy i s := by
  have hpush : .peekRange a ∉ s.overflows := by simp [State.overflows]
  have hpop : .peekRange a ∉ s.underflows := by simp [State.underflows]
  simp [raisedBy, hi, hpush, hpop]

/-- PEEK_RANGE is recorded for a peek alone (R67, R69). -/
theorem afterCommand_records_no_peekRange (hi : peekIndex? i = none) {r : Record}
    (hr : r ∈ (afterCommand i s).violations.drop s.violations.length) : r.violation ≠ .peekRange a := by
  rw [afterCommand_violations] at hr
  split at hr
  next => simp at hr
  next =>
    rw [List.drop_left] at hr
    rcases State.violation_of_mem_raised hr with hmem | hnoReset
    · exact fun heq => peekRange_notMem_raisedBy hi (heq ▸ hmem)
    · simp [hnoReset]

theorem includesPop_of_command (h : i.command = .pop ∨ i.command = .pushpop) : includesPop i = true := by
  rcases h with hpop | hpushpop
  · rw [Instr.command_eq_pop.mp hpop]
    rfl
  · obtain ⟨d, rfl⟩ := Instr.command_eq_pushpop.mp hpushpop
    rfl

theorem peekIndex?_eq_none_of_includesPop (hpop : includesPop i = true) : peekIndex? i = none := by
  cases i with
  | pop | pushpop d => rfl
  | reset | clear | nop | push d | peek a | peekpush a d => cases hpop

/-! ### The edge of a sample with known control pins -/

theorem step_of_presents {x : Sample} {rest : List Sample} {ctrl : BitVec 5} (hinputs : s.inputs = x :: rest)
    (hx : Presents s.config x ctrl 0b11111#5) (hoperands : (decodeCtrl ctrl).withOperands x = .ok i) :
    step s = exec i (s.atEdge rest) := by
  have hwidths : x.checkWidths s.config = .ok () := Sample.checkWidths_ok.mpr ⟨hx.1, hx.2.1⟩
  exact step_of_decode hinputs ((decode_of_ctrl hwidths hx.ctrl_known).trans hoperands)

end Machine

open Machine

/-- Settles O31: a peek in range writes `peek_data` alone from an array that only a push to the slot, CLEAR or RESET
changes there. -/
theorem peekRule : Obligations.PeekRule := by
  refine ⟨fun a s => ?effect, fun a s t u ha ht hu => ?again, fun a i s t u v ha hr hslot ht hu hv => ?between,
    fun s t u h ht hu => ?head, fun s x rest a hinputs hx ha => ?pins⟩
  case effect => rw [exec_peek, afterCommand_peek]
  case again =>
    obtain ⟨-, rfl⟩ := (exec_next _).mp ht
    obtain ⟨-, rfl⟩ := (exec_next _).mp hu
    exact ⟨afterCommand_peek_twice_hw a s ha, State.empty_congr (afterCommand_wr _ s) (afterCommand_rd _ s),
      State.full_congr (afterCommand_wr _ s) (afterCommand_rd _ s)⟩
  case between =>
    obtain ⟨-, rfl⟩ := (exec_next _).mp ht
    obtain ⟨-, rfl⟩ := (exec_next _).mp hu
    obtain ⟨-, rfl⟩ := (exec_next _).mp hv
    have hcap : (afterCommand i (afterCommand (.peek a) s)).cap = s.cap :=
      (afterCommand_cap i _).trans (afterCommand_cap _ s)
    have hwr : (afterCommand (.peek a) s).wr = s.wr := afterCommand_wr _ s
    rw [← hwr] at hslot
    rw [afterCommand_peekData_of_peek rfl (hcap ▸ ha), afterCommand_peekData_of_peek rfl ha,
      read_afterCommand_of_no_push_to hr hslot, read_afterCommand_of_no_push_to rfl (.inl rfl)]
  case head =>
    obtain ⟨-, rfl⟩ := (exec_next _).mp ht
    obtain ⟨-, rfl⟩ := (exec_next _).mp hu
    rw [afterCommand_peekData_of_peek rfl h.2, afterCommand_popData_of_pop rfl]
  case pins => exact step_of_presents hinputs hx (Command.withOperands_peek ha)

/-- Settles O32: both commands take the out-of-range branch of their effect, and the port carries such an index unless it
carries exactly `CAP` indices. -/
theorem peekOutOfRange : Obligations.PeekOutOfRange := by
  refine ⟨fun a s ha => ?peek, fun a d s t u ha ht hu => ?peekpush, Config.exists_index_beyond_cap_iff⟩
  case peek =>
    rw [exec_peek, afterCommand_peek]
    simp only [if_neg (Nat.not_lt.mpr ha)]
    cases s.resetSeen <;> rfl
  case peekpush =>
    obtain ⟨-, rfl⟩ := (exec_next _).mp ht
    obtain ⟨-, rfl⟩ := (exec_next _).mp hu
    have hbeyond := Nat.not_lt.mpr ha
    refine ⟨?_, ?_, fun hreset => ?_⟩
    · rw [afterCommand_peekpush_hw, afterCommand_peekpush]
      simp only [if_neg hbeyond]
    · rw [afterCommand_peekpush]
      exact if_neg hbeyond
    · rw [afterCommand_peekpush_violations, afterCommand_push_violations, State.raised_of_reset hreset,
        State.raised_of_reset hreset, List.map_append, List.append_assoc, State.peekRanges_eq, if_neg hbeyond]
      rfl

/-- Settles O33: the peek reads the array before the edge and the push writes it. -/
theorem peekpushRule : Obligations.PeekpushRule := by
  refine ⟨fun a d s h => ?effect, fun a d s t u h ht hu => ?flags, fun a d s t u h ha hslot ht hu => ?sameSlot,
    fun s x rest a d hinputs hx ha hd => ?pins⟩
  case effect => rw [exec_of_inRange _ h, afterCommand_peekpush]
  case flags =>
    obtain ⟨-, rfl⟩ := (exec_next _).mp ht
    obtain ⟨-, rfl⟩ := (exec_next _).mp hu
    have hhw := afterCommand_peekpush_hw a d s
    exact ⟨State.empty_congr (congrArg Hardware.wr hhw) (congrArg Hardware.rd hhw),
      State.full_congr (congrArg Hardware.wr hhw) (congrArg Hardware.rd hhw)⟩
  case sameSlot =>
    obtain ⟨-, rfl⟩ := (exec_next _).mp ht
    obtain ⟨-, rfl⟩ := (exec_next _).mp hu
    have hcap := afterCommand_cap (.peekpush a d) s
    refine ⟨afterCommand_peekData_of_peek rfl ha, ?_⟩
    rw [afterCommand_peekData_of_peek rfl (hcap ▸ ha)]
    exact hslot ▸ read_afterCommand_pushed h rfl rfl
  case pins => exact step_of_presents hinputs hx (Command.withOperands_peekpush ha hd)

/-- Settles O34: R47 decodes the sample to a command with a pop, and no such command has a peek. -/
theorem peekWithPopIsDropped : Obligations.PeekWithPopIsDropped := by
  intro s x rest hinputs
  refine ⟨fun hx => step_of_presents hinputs hx rfl,
    fun d hx hd => step_of_presents hinputs hx (Command.withOperands_pushpop hd),
    fun hx t hstep => ?dropped, rfl, fun d => rfl⟩
  case dropped =>
    obtain ⟨i, u, hfetch, -⟩ := step_next.mp hstep
    obtain ⟨y, ys, hys, hdecode, -⟩ := State.fetch_ok.mp hfetch
    cases hinputs.symm.trans hys
    have hpop : includesPop i = true := includesPop_of_command
      (hx.imp (·.command_of_decode hdecode) (·.command_of_decode hdecode))
    have hpeek := peekIndex?_eq_none_of_includesPop hpop
    have hne : i ≠ .reset := by rintro rfl; cases hpop
    refine ⟨step_peekData_of_no_peek hfetch hstep hpeek hne, fun r hr a => ?_⟩
    obtain ⟨rest', rfl⟩ := step_eq_afterCommand hfetch hstep
    exact afterCommand_records_no_peekRange (s := s.atEdge rest') hpeek hr

end Sys2Proof

/-! ## The violation log (R74, R75, R76)

What a command raises, by its causes on the state before it, and how the log grows over the edges of a run. -/

namespace Sys2Proof

namespace Machine

variable {s t : State} {i : Instr}

/-! ### Which violations a command raises -/

/-- UNDERFLOW is raised by the flags; with the cursors in range they show exactly occupancy 0 (R22, R64). -/
theorem State.underflows_of_inRange (h : s.CursorsInRange) :
    s.underflows = if s.occ = 0 then [.underflow s.rd.idx] else [] := by
  obtain ⟨hwr, hrd⟩ := h
  have hcause : (s.empty && !s.full) = true ↔ s.occ = 0 := by
    rw [← State.noByte_iff_occ hwr hrd, Bool.and_eq_true, Bool.not_eq_true']
  exact if_congr hcause rfl rfl

theorem State.peekRanges_eq_ite_le (s : State) (a : Nat) :
    s.peekRanges a = if s.cap ≤ a then [.peekRange a] else [] := by
  rw [State.peekRanges_eq, ← ite_not]
  exact if_congr Nat.not_lt rfl rfl

/-- The three causes of R74, in code order (R76). -/
theorem raisedBy_of_inRange (h : s.CursorsInRange) : raisedBy i s =
    (if pushedBytes i ≠ [] ∧ includesPop i = false ∧ s.full = true
      then [.overflow s.wr.idx (Memory.read s.storage s.wr.idx)] else []) ++
    (if includesPop i = true ∧ s.occ = 0 then [.underflow s.rd.idx] else []) ++
    (match peekIndex? i with
      | some a => if s.cap ≤ a then [.peekRange a] else []
      | none   => []) := by
  have hoverflows : s.overflows =
      if s.full = true then [.overflow s.wr.idx (Memory.read s.storage s.wr.idx)] else [] := rfl
  unfold raisedBy
  cases peekIndex? i with
  | none | some a =>
    simp only [hoverflows, State.underflows_of_inRange h, State.peekRanges_eq_ite_le, ite_and]

/-! ### The log over the edges of a run -/

/-- An edge counts itself and appends records of its own number (R75). -/
theorem step_log (hstep : step s = .next t) :
    t.edge = s.edge + 1 ∧ ∃ added, t.violations = s.violations ++ added ∧ ∀ r ∈ added, r.edge = t.edge := by
  obtain ⟨i, u, hfetch, -⟩ := step_next.mp hstep
  obtain ⟨rest, rfl⟩ := step_eq_afterCommand hfetch hstep
  rw [afterCommand_edge]
  exact ⟨rfl, afterCommand_log i (s.atEdge rest)⟩

theorem core_run_succ_next {k : Nat} : Sys2Proof.core.run (k + 1) s = .next t ↔
    ∃ u, step s = .next u ∧ Sys2Proof.core.run k u = .next t := by
  rw [core_run_succ]
  cases step s <;> simp

theorem run_log {k : Nat} (hrun : Sys2Proof.core.run k s = .next t) :
    t.edge = s.edge + k ∧
    ∃ added, t.violations = s.violations ++ added ∧ ∀ r ∈ added, s.edge < r.edge ∧ r.edge ≤ t.edge := by
  induction k generalizing s with
  | zero =>
    cases hrun
    exact ⟨rfl, [], (List.append_nil _).symm, by simp⟩
  | succ k ih =>
    obtain ⟨u, hstep, hrest⟩ := core_run_succ_next.mp hrun
    obtain ⟨hedge, first, hfirst, hfirstEdge⟩ := step_log hstep
    obtain ⟨hedges, later, hlater, hlaterEdge⟩ := ih hrest
    refine ⟨by omega, first ++ later, by rw [hlater, hfirst, List.append_assoc], fun r hr => ?_⟩
    rcases List.mem_append.mp hr with hr | hr
    · have := hfirstEdge r hr
      omega
    · have := hlaterEdge r hr
      omega

end Machine

open Machine

/-- Settles O43: a command that completes records what it raises, and with the cursors in range that is read off the
occupancy. -/
theorem violationsAreRaisedByCause : Obligations.ViolationsAreRaisedByCause := by
  refine ⟨fun i s t h hexec => ?records, fun _ _ _ _ => ⟨rfl, rfl, rfl, rfl⟩⟩
  case records =>
    obtain ⟨-, rfl⟩ := (exec_next i).mp hexec
    rw [afterCommand_violations]
    by_cases hi : i = .reset
    · rw [if_pos hi, if_pos hi, List.map_nil, List.append_nil]
    · rw [if_neg hi, if_neg hi]
      cases hreset : s.resetSeen with
      | false => rw [State.raised_of_no_reset hreset]; rfl
      | true => rw [State.raised_of_reset hreset, raisedBy_of_inRange h]; rfl

/-- Settles O45: power-up has an empty log, and a run is an induction over its edges. -/
theorem violationLogOnlyGrows : Obligations.ViolationLogOnlyGrows :=
  ⟨fun _ _ => rfl, fun _ _ _ => run_log⟩

end Sys2Proof

/-! ## RESET against CLEAR (R90)

The two commands that put the queue at its start, and what each does beside that. -/

namespace Sys2Proof

namespace Machine

variable {i : Instr}

/-! ### What the two commands share -/

theorem afterCommand_cursors_of_restarts (hr : restarts i = true) (s : State) :
    (afterCommand i s).wr = Cursor.start ∧ (afterCommand i s).rd = Cursor.start := by
  rw [afterCommand_wr, afterCommand_rd, if_pos hr, if_pos hr]
  exact ⟨rfl, rfl⟩

theorem read_afterCommand_of_restarts (hr : restarts i = true) (s : State) (a : Nat) :
    Memory.read (afterCommand i s).storage a = 0x00#8 := by
  rw [afterCommand_storage, if_pos hr]
  rfl

/-! ### Where they differ -/

/-- Of the hardware, RESET differs from CLEAR in the two output registers alone (R90). -/
theorem afterCommand_reset_hw (s : State) : (afterCommand .reset s).hw =
    { (afterCommand .clear s).hw with popData := 0x00, peekData := 0x00 } := rfl

theorem afterCommand_clear_violations (s : State) :
    (afterCommand .clear s).violations = s.violations ++ s.raised .clear [] := rfl

end Machine

open Machine

/-- Settles O21: each field after RESET and after CLEAR is the branch of its own equation, and both commands restart the
queue. -/
theorem resetAndClearDiffer : Obligations.ResetAndClearDiffer := by
  intro s t u hreset hclear
  obtain ⟨-, rfl⟩ := (exec_next .reset).mp hreset
  obtain ⟨-, rfl⟩ := (exec_next .clear).mp hclear
  refine ⟨afterCommand_reset_hw s, afterCommand_popData .clear s, afterCommand_peekData .clear s,
    afterCommand_resetSeen .reset s, afterCommand_resetSeen .clear s, afterCommand_violations .reset s,
    fun hpower => ?record,
    fun a => ⟨read_afterCommand_of_restarts rfl s a, read_afterCommand_of_restarts rfl s a⟩, ?cursors⟩
  case record => rw [afterCommand_clear_violations, State.raised_of_no_reset hpower]
  case cursors =>
    rintro v (rfl | rfl)
    · exact afterCommand_cursors_of_restarts rfl s
    · exact afterCommand_cursors_of_restarts rfl s

end Sys2Proof

/-! ## Samples as the decoder reads them (R45 to R52)

Decoding the pins of a well-formed command, the operand buses a command uses, and when a sample is refused. -/

namespace Sys2Proof

open Machine

variable {c : Config} {x y : Sample} {i : Instr} {k : Command}

/-! ### A well-formed command read back -/

theorem decode_ofInstr (h : i.wellFormed c = true) : decode c (Sample.ofInstr c i) = .ok i := by
  obtain ⟨y, rest, hinputs, hdecode, -⟩ := State.fetch_ok.mp (State.fetch_ofInstr (s := State.resetWith c) h)
  cases hinputs
  exact hdecode

theorem decodeWord_encode (h : i.wellFormed c = true) : decodeWord c (encode c i) = .ok i :=
  (if_pos (Laws.WordFits.of_wellFormed i c h)).trans (decode_ofInstr h)

/-- Settles O6: the word is the one the pins are made from, and its fields are read back one by one. -/
theorem decodeEncodeRoundTrip : Obligations.DecodeEncodeRoundTrip :=
  fun c i h => ⟨Laws.WordFits.of_wellFormed i c h, decodeWord_encode h, decode_ofInstr h⟩

/-- Settles O9: each word is the encoding of its command. -/
theorem specWordsDecode : Obligations.SpecWordsDecode :=
  ⟨decodeWord_encode (i := .reset) rfl, decodeWord_encode (i := .clear) rfl, decodeWord_encode (i := .nop) rfl,
    decodeWord_encode (i := .push 0x41) rfl, decodeWord_encode (i := .pop) rfl, decodeWord_encode (i := .pushpop 5) rfl,
    decodeWord_encode (i := .peek 6) (by decide), decodeWord_encode (i := .peekpush 0 0xBB) (by decide)⟩

/-! ### The operands a command uses -/

/-- The operand buses a command uses are known (R46, R52). -/
def OperandsKnown (k : Command) (x : Sample) : Prop :=
  (usesPushData k → ∃ n, busValue x.producer.pushData = some n) ∧
  (usesPeekAddr k → ∃ n, busValue x.consumer.peekAddr = some n)

theorem not_operandsKnown_iff : ¬OperandsKnown k x ↔
    (usesPushData k ∧ busValue x.producer.pushData = none) ∨
    (usesPeekAddr k ∧ busValue x.consumer.peekAddr = none) := by
  simp only [OperandsKnown, ← Option.isSome_iff_exists, not_and_or, Classical.not_imp, Option.not_isSome_iff_eq_none]

theorem Sample.pushByte_cases (x : Sample) :
    ((∃ n, busValue x.producer.pushData = some n) ∧ ∃ d, x.pushByte = .ok d) ∨
    (busValue x.producer.pushData = none ∧ x.pushByte = .error (.unknownInput .pushData)) := by
  unfold Sample.pushByte sampleBus
  cases busValue x.producer.pushData with
  | none => exact .inr ⟨rfl, rfl⟩
  | some n => exact .inl ⟨⟨n, rfl⟩, _, rfl⟩

theorem Sample.peekIndex_cases (x : Sample) :
    ((∃ n, busValue x.consumer.peekAddr = some n) ∧ ∃ a, x.peekIndex = .ok a) ∨
    (busValue x.consumer.peekAddr = none ∧ x.peekIndex = .error (.unknownInput .peekAddr)) := by
  unfold Sample.peekIndex sampleBus
  cases busValue x.consumer.peekAddr with
  | none => exact .inr ⟨rfl, rfl⟩
  | some n => exact .inl ⟨⟨n, rfl⟩, n, rfl⟩

/-- What reading the operands answers: a command when the buses it uses are known, else the name of one that is not. -/
theorem Command.withOperands_cases (k : Command) (x : Sample) :
    (OperandsKnown k x ∧ ∃ i, k.withOperands x = .ok i) ∨
    (¬OperandsKnown k x ∧ ∃ p, k.withOperands x = .error (.unknownInput p)) := by
  unfold OperandsKnown usesPushData usesPeekAddr
  cases k with
  | reset | clear | nop | pop => simp [Command.withOperands]
  | push | pushpop =>
    rcases Sample.pushByte_cases x with ⟨hn, d, hd⟩ | ⟨hn, hd⟩ <;>
      simp [Command.withOperands, hn, hd, bind, Except.bind, pure, Except.pure]
  | peek =>
    rcases Sample.peekIndex_cases x with ⟨hn, a, ha⟩ | ⟨hn, ha⟩ <;>
      simp [Command.withOperands, hn, ha, bind, Except.bind, pure, Except.pure]
  | peekpush =>
    rcases Sample.peekIndex_cases x with ⟨hm, a, ha⟩ | ⟨hm, ha⟩
    · rcases Sample.pushByte_cases x with ⟨hn, d, hd⟩ | ⟨hn, hd⟩ <;>
        simp [Command.withOperands, hm, hn, ha, hd, bind, Except.bind, pure, Except.pure]
    · simp [Command.withOperands, hm, ha, bind, Except.bind]

theorem Command.withOperands_ok_iff : (∃ i, k.withOperands x = .ok i) ↔ OperandsKnown k x := by
  rcases Command.withOperands_cases k x with ⟨hknown, hok⟩ | ⟨hunknown, p, herror⟩
  · exact iff_of_true hok hknown
  · simp [herror, hunknown]

/-- A command read from the pins carries the operands its buses show (R46). -/
theorem Command.operands_of_withOperands (h : k.withOperands x = .ok i) :
    (∀ d ∈ pushedBytes i, x.pushByte = .ok d) ∧ (∀ a, peekIndex? i = some a → x.peekIndex = .ok a) := by
  cases k <;> simp only [Command.withOperands] at h
  case push | pushpop =>
    cases hd : x.pushByte <;> simp [hd, bind, Except.bind, pure, Except.pure] at h
    subst h
    simp [pushedBytes, peekIndex?]
  case peek =>
    cases ha : x.peekIndex <;> simp [ha, bind, Except.bind, pure, Except.pure] at h
    subst h
    simp [pushedBytes, peekIndex?]
  case peekpush =>
    cases ha : x.peekIndex <;> cases hd : x.pushByte <;> simp [ha, hd, bind, Except.bind, pure, Except.pure] at h
    subst h
    simp [pushedBytes, peekIndex?]
  all_goals
    cases h
    simp [pushedBytes, peekIndex?]

/-- Only the buses a command uses are looked at (R46). -/
theorem Command.withOperands_congr (hd : usesPushData k → x.producer.pushData = y.producer.pushData)
    (ha : usesPeekAddr k → x.consumer.peekAddr = y.consumer.peekAddr) : k.withOperands x = k.withOperands y := by
  unfold usesPushData at hd
  unfold usesPeekAddr at ha
  cases k <;> simp_all [Command.withOperands, Sample.pushByte, Sample.peekIndex]

/-! ### What decodes -/

theorem Instr.wellFormed_iff : i.wellFormed c = true ↔ ∀ a, peekIndex? i = some a → a < 2 ^ c.width := by
  cases i <;> simp [Instr.wellFormed, indexFits, peekIndex?]

/-- An index that a sample of the block carries fits the port. -/
theorem wellFormed_of_decode (h : decode c x = .ok i) : i.wellFormed c = true := by
  obtain ⟨ctrl, -, -, hoperands⟩ := decode_ok h
  refine Instr.wellFormed_iff.mpr fun a ha => ?_
  have hindex := (Command.operands_of_withOperands hoperands).2 a ha
  rw [← decode_peekAddr_length h]
  exact busValue_lt (Sample.peekIndex_ok.mp hindex)

theorem decode_pushData_length (h : decode c x = .ok i) : x.producer.pushData.length = 8 := by
  obtain ⟨-, hwidths, -, -⟩ := decode_ok h
  exact (Sample.checkWidths_ok.mp hwidths).1

/-- A byte read from eight pins is their value (R46). -/
theorem busValue_of_pushByte {d : Byte} (hlength : x.producer.pushData.length = 8) (hd : x.pushByte = .ok d) :
    busValue x.producer.pushData = some d.toNat := by
  obtain ⟨n, hn, rfl⟩ := Sample.pushByte_ok.mp hd
  have hlt : n < 2 ^ 8 := hlength ▸ busValue_lt hn
  rw [hn, BitVec.toNat_ofNat, Nat.mod_eq_of_lt hlt]

/-- Settles O7: the index of a command that decodes was read from `W` pins. -/
theorem decodedCommandsAreWellFormed : Obligations.DecodedCommandsAreWellFormed :=
  fun _ _ _ h => ⟨wellFormed_of_decode h, decode_ofInstr (wellFormed_of_decode h)⟩

/-- Settles O5: known control pins give a command of the control field, and known buses its operands. -/
theorem everyKnownSampleDecodes : Obligations.EveryKnownSampleDecodes := by
  intro c x ctrl m n hx hdata haddr
  obtain ⟨i, hi⟩ : ∃ i, (decodeCtrl ctrl).withOperands x = .ok i :=
    Command.withOperands_ok_iff.mpr ⟨fun _ => ⟨m, hdata⟩, fun _ => ⟨n, haddr⟩⟩
  have hwidths : x.checkWidths c = .ok () := Sample.checkWidths_ok.mpr ⟨hx.1, hx.2.1⟩
  have hdecode : decode c x = .ok i := (decode_of_ctrl hwidths hx.ctrl_known).trans hi
  exact ⟨i, hdecode, Command.withOperands_command hi, wellFormed_of_decode hdecode⟩

/-- Settles O58: the pins of a row are the request pins that give its command, and its operands are then read. -/
theorem commandsDecodeByTheirTableRow : Obligations.CommandsDecodeByTheirTableRow := by
  intro c x k
  constructor
  · rintro ⟨i, hdecode, rfl⟩
    obtain ⟨ctrl, hwidths, hctrl, hoperands⟩ := decode_ok hdecode
    have hcommand := Command.withOperands_command hoperands
    obtain ⟨r, hr, hrow, hpins⟩ := row_iff_ctrl.mpr ⟨ctrl, hctrl, hcommand.symm⟩
    obtain ⟨h8, hw⟩ := Sample.checkWidths_ok.mp hwidths
    exact ⟨r, hr, hrow, ⟨h8, hw, hpins⟩, Command.withOperands_ok_iff.mp ⟨i, hcommand ▸ hoperands⟩⟩
  · rintro ⟨r, hr, rfl, hx, hknown⟩
    obtain ⟨i, hi⟩ := Command.withOperands_ok_iff.mpr hknown
    exact ⟨i, (hx.decode_row hr).trans hi, Command.withOperands_command hi⟩

/-! ### What is refused -/

theorem Level.bit?_eq_some_false {l : Level} : l.bit? = some false ↔ l = .low := by cases l <;> simp [Level.bit?]

/-- A request pin that R48 has the decoder look at is unknown or undriven (R52; log 3). -/
def RequestUnknown (x : Sample) : Prop :=
  x.controller.rst.bit? = none ∨
  (x.controller.rst = .low ∧ x.controller.clr.bit? = none) ∨
  (x.controller.rst = .low ∧ x.controller.clr = .low ∧
    (x.consumer.pop.bit? = none ∨ x.producer.push.bit? = none ∨
      (x.consumer.pop = .low ∧ x.consumer.peek.bit? = none)))

/-- The two answers of the request pins, by whether a used one is unknown. -/
theorem Sample.ctrl_known_or (x : Sample) :
    (¬RequestUnknown x ∧ ∃ ctrl, x.ctrl = .ok ctrl) ∨
    (RequestUnknown x ∧ ∃ p, x.ctrl = .error (.unknownInput p)) := by
  simp only [RequestUnknown, ← Level.bit?_eq_some_false]
  rcases Sample.ctrl_cases x with ⟨ctrl, hc, h⟩ | ⟨p, hc, h⟩
  · refine .inl ⟨?_, ctrl, hc⟩
    rcases h with ⟨h0, -⟩ | ⟨h0, h1, -⟩ | ⟨h0, h1, q, p, h2, h3, ⟨hq, -⟩ | ⟨-, b, h4, -⟩⟩ <;> simp [*]
  · exact .inr ⟨h, p, hc⟩

/-- An input that the command of a sample uses is unknown or undriven (R52; log 3). -/
def UsedInputUnknown (x : Sample) : Prop :=
  RequestUnknown x ∨ ∃ ctrl, x.ctrl = .ok ctrl ∧ ¬OperandsKnown (decodeCtrl ctrl) x

/-- A sample of the block's widths decodes, or a used input is unknown and the answer names one (R52). -/
theorem decode_known_or (hwidths : x.checkWidths c = .ok ()) :
    (¬UsedInputUnknown x ∧ ∃ i, decode c x = .ok i) ∨
    (UsedInputUnknown x ∧ ∃ p, decode c x = .error (.unknownInput p)) := by
  unfold UsedInputUnknown
  rcases Sample.ctrl_known_or x with ⟨hknown, ctrl, hctrl⟩ | ⟨hunknown, p, hctrl⟩
  · rw [decode_of_ctrl hwidths hctrl]
    simpa [hctrl, hknown] using (decodeCtrl ctrl).withOperands_cases x
  · refine .inr ⟨.inl hunknown, p, ?_⟩
    unfold decode
    rw [hwidths, hctrl]
    rfl

namespace Machine

variable {s : State} {rest : List Sample}

theorem step_of_decode_error {e : DecodeError} (hinputs : s.inputs = x :: rest) (hdecode : decode s.config x = .error e) :
    step s = .refused (.badSample e) := by
  unfold step State.fetch
  rw [hinputs]
  simp only [hdecode]

/-- Samples that decode alike make the same step. -/
theorem step_congr_sample (h : decode s.config x = decode s.config y) :
    step { s with inputs := x :: rest } = step { s with inputs := y :: rest } := by
  simp only [step, State.fetch, h]

/-- The row whose pins a sample shows is the one its request bits decode to. -/
theorem exists_row_iff_ctrl {P : Command → Prop} (hwidths : x.checkWidths c = .ok ()) :
    (∃ r ∈ commandTable, Presents c x r.pattern r.mask ∧ P r.command) ↔
    ∃ ctrl, x.ctrl = .ok ctrl ∧ P (decodeCtrl ctrl) := by
  obtain ⟨h8, hw⟩ := Sample.checkWidths_ok.mp hwidths
  constructor
  · rintro ⟨r, hr, ⟨-, -, hpins⟩, hP⟩
    obtain ⟨ctrl, hctrl, hk⟩ := row_iff_ctrl.mp ⟨r, hr, rfl, hpins⟩
    exact ⟨ctrl, hctrl, hk ▸ hP⟩
  · rintro ⟨ctrl, hctrl, hP⟩
    obtain ⟨r, hr, hk, hpins⟩ := row_iff_ctrl.mpr ⟨ctrl, hctrl, rfl⟩
    exact ⟨r, hr, ⟨h8, hw, hpins⟩, hk ▸ hP⟩

end Machine

/-- Settles O12: the unknown inputs of the statement are those of the request pins and of the operands, and a command that
decodes is never refused. -/
theorem unknownUsedInputsAreRefused : Obligations.UnknownUsedInputsAreRefused := by
  intro s x rest hinputs h8 hw
  have hwidths : x.checkWidths s.config = .ok () := Sample.checkWidths_ok.mpr ⟨h8, hw⟩
  intro unknown
  have hunknown : unknown ↔ UsedInputUnknown x := by
    simp only [unknown, UsedInputUnknown, RequestUnknown, or_assoc, ← not_operandsKnown_iff,
      exists_row_iff_ctrl (P := fun k => ¬OperandsKnown k x) hwidths]
  rw [hunknown]
  rcases decode_known_or hwidths with ⟨hknown, i, hdecode⟩ | ⟨hcause, p, hdecode⟩
  · exact ⟨fun h => absurd h hknown, fun _ r => step_of_decode hinputs hdecode ▸ exec_ne_refused i r⟩
  · exact ⟨fun _ => ⟨p, step_of_decode_error hinputs hdecode⟩, fun h => absurd hcause h⟩

/-- Settles O11: two samples of one row decode alike, and the operands of a command that decodes are those of its buses. -/
theorem unusedOperandsHaveNoEffect : Obligations.UnusedOperandsHaveNoEffect := by
  refine ⟨fun s x y rest r hr hx hy hdata haddr => ?unused, fun c x i hdecode => ?used⟩
  case unused =>
    refine step_congr_sample ?_
    rw [hx.decode_row hr, hy.decode_row hr, Command.withOperands_congr hdata haddr]
  case used =>
    obtain ⟨ctrl, -, -, hoperands⟩ := decode_ok hdecode
    obtain ⟨hpush, hpeek⟩ := Command.operands_of_withOperands hoperands
    exact ⟨fun d hd => busValue_of_pushByte (decode_pushData_length hdecode) (hpush d hd),
      fun a ha => Sample.peekIndex_ok.mp (hpeek a ha)⟩

/-! ### The command of the next edge -/

/-- Settles O13: the step fetches the sample and runs its command. -/
theorem stepRunsTheDecodedCommand : Obligations.StepRunsTheDecodedCommand :=
  fun _ _ _ _ => step_of_decode

/-- Settles O14: the pins of a well-formed command decode to it. -/
theorem presentedCommandRunsAtTheNextEdge : Obligations.PresentedCommandRunsAtTheNextEdge :=
  fun s _ h => step_of_decode (s := s.withNextSample _) rfl (decode_ofInstr h)

/-! ### The rows of the table -/

/-- Settles O3: the rows are compared with the decoder on each of the 32 control fields. -/
theorem commandTableAgreesWithDecoder : Obligations.CommandTableAgreesWithDecoder := by
  unfold Obligations.CommandTableAgreesWithDecoder
  decide

/-- A row's bits in the table's numbering are its pattern, whose command the decoder gives (R48). -/
theorem commandTable_pattern : ∀ r ∈ commandTable,
    BitVec.ofNat 5 (r.pattern.toNat % 2 ^ 8) = r.pattern ∧ decodeCtrl r.pattern = r.command := by
  decide

theorem decode_ofTableWord {r : TableRow} (hr : r ∈ commandTable) :
    ∃ i, decode c (Sample.ofTableWord c 8 r.pattern.toNat) = .ok i ∧ i.command = r.command := by
  obtain ⟨hbits, hcommand⟩ := commandTable_pattern r hr
  have haddr : 0 < 2 ^ c.width := Nat.two_pow_pos _
  unfold Sample.ofTableWord
  rw [hbits, decode_of_ctrl (Sample.checkWidths_ofWord c _) (Sample.ctrl_ofWord c _ _ haddr), hcommand]
  have hdata := Sample.pushByte_ofWord c r.pattern 0 haddr
  have hindex := Sample.peekIndex_ofWord c r.pattern 0 haddr
  obtain ⟨n, hn, -⟩ := Sample.pushByte_ok.mp hdata
  obtain ⟨i, hi⟩ := Command.withOperands_ok_iff.mpr
    (⟨fun _ => ⟨n, hn⟩, fun _ => ⟨0, Sample.peekIndex_ok.mp hindex⟩⟩ : OperandsKnown r.command _)
  exact ⟨i, hi, Command.withOperands_command hi⟩

theorem decodeTableWord_of_decode {nbits w : Nat}
    (h : decode Config.default (Sample.ofTableWord Config.default nbits w) = .ok i) :
    decodeTableWord nbits w = some i := by
  unfold decodeTableWord
  rw [h]

/-- Settles O10: the row's pins decode to its command on the default block, which is the block at reset. -/
theorem tableRowsRunAfterReset : Obligations.TableRowsRunAfterReset := by
  intro r hr
  obtain ⟨i, hdecode, hcommand⟩ := decode_ofTableWord (c := Config.default) hr
  exact ⟨i, decodeTableWord_of_decode hdecode, hcommand,
    step_of_decode (s := State.reset.withFetchWord 8 r.pattern.toNat) rfl hdecode⟩

end Sys2Proof

/-! ## The block never stops (R71, R96)

Completion of every edge whose sample decodes, the invariant at its first states, and the stops of the model outside the
block's states and inputs. -/

namespace Sys2Proof

namespace Machine

variable {s : State} {i : Instr} {x : Sample} {rest : List Sample}

theorem State.resetWith_inv (c : Config) : (State.resetWith c).Inv :=
  ⟨⟨c.cap_pos, c.cap_pos⟩, Memory.wf_nil c.cap⟩

/-! ### Completion -/

/-- From a state of the block an edge whose sample decodes completes (R71). -/
theorem step_of_decode_inRange (h : s.CursorsInRange) (hinputs : s.inputs = x :: rest)
    (hdecode : decode s.config x = .ok i) : step s = .next (afterCommand i (s.atEdge rest)) :=
  (step_of_decode hinputs hdecode).trans (exec_of_inRange (s := s.atEdge rest) i h)

theorem step_ne_fault (h : s.CursorsInRange) (f : Fault) : step s ≠ .fault f := by
  unfold step
  cases hfetch : s.fetch with
  | error r => simp
  | ok p =>
    obtain ⟨rest, hu⟩ := State.fetch_eq_atEdge (u := p.2) hfetch
    have hexec : exec p.1 p.2 = .next (afterCommand p.1 p.2) := exec_of_inRange p.1 (hu ▸ h)
    simp [hexec]

/-- A run takes an edge for each of the samples presented that decode. -/
theorem run_completes {k : Nat} (h : s.Inv) (hk : k ≤ s.inputs.length)
    (hdecode : ∀ x ∈ s.inputs, ∃ i, decode s.config x = .ok i) : ∃ t, Sys2Proof.core.run k s = .next t := by
  induction k generalizing s with
  | zero => exact ⟨s, rfl⟩
  | succ k ih =>
    obtain ⟨x, rest, hinputs⟩ := List.exists_cons_of_length_pos (Nat.zero_lt_of_lt hk)
    rw [hinputs] at hk hdecode
    obtain ⟨i, hi⟩ := hdecode x List.mem_cons_self
    have hstep := step_of_decode_inRange h.1 hinputs hi
    have hinputs' : (afterCommand i (s.atEdge rest)).inputs = rest := afterCommand_inputs i _
    have hconfig : (afterCommand i (s.atEdge rest)).config = s.config := afterCommand_config i _
    obtain ⟨t, ht⟩ := ih (step_inv h hstep) (by rw [hinputs']; exact Nat.le_of_succ_le_succ hk)
      (by rw [hinputs', hconfig]; exact fun y hy => hdecode y (List.mem_cons_of_mem x hy))
    exact ⟨t, core_run_succ_next.mpr ⟨_, hstep, ht⟩⟩

/-! ### The model's own stops (log 2, 3, 8) -/

theorem step_of_no_sample (h : s.inputs = []) : step s = .refused .noSample := by
  unfold step State.fetch
  rw [h]

theorem decode_of_pushData_length {c : Config} (h : x.producer.pushData.length ≠ 8) :
    decode c x = .error (.busWidth .pushData) := by
  have hwidths : x.checkWidths c = .error (.busWidth .pushData) := if_pos h
  unfold decode
  rw [hwidths]
  rfl

theorem decode_of_peekAddr_length {c : Config} (h8 : x.producer.pushData.length = 8)
    (h : x.consumer.peekAddr.length ≠ c.width) : decode c x = .error (.busWidth .peekAddr) := by
  have hwidths : x.checkWidths c = .error (.busWidth .peekAddr) := (if_neg (not_not_intro h8)).trans (if_pos h)
  unfold decode
  rw [hwidths]
  rfl

theorem State.accessing_cons_of_ge {a : Nat} {slots : List Nat} {u : State} (h : s.cap ≤ a) :
    s.accessing (a :: slots) u = .fault (.noSuchSlot a) := by
  simp [State.accessing, h]

theorem State.accessing_cons_of_lt {a : Nat} {slots : List Nat} {u : State} (h : a < s.cap) :
    s.accessing (a :: slots) u = s.accessing slots u := by
  simp [State.accessing, h]

end Machine

open Machine

/-- Settles O50: both cursors of the reset state are at slot 0 and its array lists nothing. -/
theorem invariantHoldsInitially : Obligations.InvariantHoldsInitially :=
  ⟨State.resetWith_inv Config.default, State.resetWith_inv, State.powerUp_inv⟩

/-- Settles O52: the cursors of a state of the block name slots, so no command faults, and a run is an induction over its
edges. -/
theorem noEdgeEverStops : Obligations.NoEdgeEverStops := by
  refine ⟨fun s f h => step_ne_fault h.1 f, fun k s h hk hdecode => ?_⟩
  obtain ⟨t, hrun⟩ := run_completes h hk hdecode
  exact ⟨t, hrun, run_inv h hrun⟩

/-- Settles O16: a sample that does not decode is refused, and the shared check names the first slot that is none. -/
theorem stopsAreNamed : Obligations.StopsAreNamed := by
  refine ⟨fun s => step_of_no_sample,
    fun s x rest hinputs h8 => step_of_decode_error hinputs (decode_of_pushData_length h8),
    fun s x rest hinputs h8 hw => step_of_decode_error hinputs (decode_of_peekAddr_length h8 hw),
    fun s a d hwr => ⟨State.accessing_cons_of_ge hwr, State.accessing_cons_of_ge hwr, fun hrd => ?_⟩,
    fun s d hrd => ⟨State.accessing_cons_of_ge hrd, State.accessing_cons_of_ge hrd⟩⟩
  exact (State.accessing_cons_of_lt hrd).trans (State.accessing_cons_of_ge hwr)

end Sys2Proof

/-! ## The queue the block stands for (R60, R84)

When an edge records nothing, what a push and a pop do to the bytes held, and the FIFO law over a run. -/

namespace Sys2Proof

namespace Machine

variable {s t : State} {i : Instr}

/-! ### An edge that records nothing -/

theorem State.overflows_eq_nil_iff : s.overflows = [] ↔ s.full = false := by
  simp [State.overflows]

theorem State.underflows_eq_nil_iff : s.underflows = [] ↔ ¬(s.empty = true ∧ s.full = false) := by
  simp [State.underflows]

theorem State.peekRanges_eq_nil_iff {a : Nat} : s.peekRanges a = [] ↔ a < s.cap := by
  simp [State.peekRanges_eq]

/-- A command raises nothing exactly when its agents keep their duties (R84). -/
theorem raisedBy_eq_nil_iff : raisedBy i s = [] ↔ ConsumerDuty s i ∧ ProducerDuty s i ∧ PeekInRange s i := by
  have hproducer : (if pushedBytes i ≠ [] ∧ includesPop i = false then s.overflows else []) = [] ↔ ProducerDuty s i := by
    rw [ite_eq_right_iff, State.overflows_eq_nil_iff, and_imp]
    rfl
  have hconsumer : (if includesPop i = true then s.underflows else []) = [] ↔ ConsumerDuty s i := by
    rw [ite_eq_right_iff, State.underflows_eq_nil_iff]
    rfl
  unfold raisedBy PeekInRange
  rw [List.append_eq_nil_iff, List.append_eq_nil_iff, hproducer, hconsumer, and_comm (a := ProducerDuty s i), and_assoc]
  cases peekIndex? i with
  | none => simp
  | some a => simp [State.peekRanges_eq_nil_iff]

theorem State.raised_eq_nil_iff {k : Command} {vs : List Violation} :
    s.raised k vs = [] ↔ s.resetSeen = true ∧ vs = [] := by
  cases hreset : s.resetSeen with
  | false => simp [State.raised_of_no_reset hreset]
  | true => simp [State.raised_of_reset hreset]

/-- The log is unchanged exactly when every duty is kept (R73, R84). -/
theorem afterCommand_violations_eq_iff : (afterCommand i s).violations = s.violations ↔
    ControllerDuty s i ∧ ConsumerDuty s i ∧ ProducerDuty s i ∧ PeekInRange s i := by
  rw [afterCommand_violations, ← raisedBy_eq_nil_iff]
  by_cases hi : i = .reset
  · subst hi
    exact iff_of_true (if_pos rfl) ⟨.inr rfl, rfl⟩
  · rw [if_neg hi, List.append_right_eq_self, State.raised_eq_nil_iff, ControllerDuty, or_iff_left hi]

/-! ### Bytes on a ring of slots -/

/-- The bytes of `n` slots of a ring of `cap`, from slot `first` on (R60, item 3). -/
def ringBytes (m : Memory) (cap first n : Nat) : List Byte :=
  (List.range n).map fun k => Memory.read m ((first + k) % cap)

theorem State.contents_eq_ringBytes (s : State) : s.contents = ringBytes s.storage s.cap s.rd.idx s.occ := rfl

theorem State.contents_length (s : State) : s.contents.length = s.occ := by
  simp [State.contents]

theorem ringBytes_succ_last (m : Memory) (cap first n : Nat) :
    ringBytes m cap first (n + 1) = ringBytes m cap first n ++ [Memory.read m ((first + n) % cap)] := by
  simp [ringBytes, List.range_succ]

theorem ringBytes_succ_first (m : Memory) (cap first n : Nat) :
    ringBytes m cap first (n + 1) = Memory.read m (first % cap) :: ringBytes m cap ((first + 1) % cap) n := by
  simp [ringBytes, List.range_succ_eq_map, Function.comp_def, Nat.add_assoc, Nat.add_comm 1]

theorem ring_slot_ne {cap first k n : Nat} (hk : k < n) (hn : n < cap) : (first + k) % cap ≠ (first + n) % cap := by
  intro h
  have hmod : k % cap = n % cap := Nat.ModEq.add_left_cancel' first h
  rw [Nat.mod_eq_of_lt (by omega), Nat.mod_eq_of_lt hn] at hmod
  omega

/-- A write just after the slots listed touches none of them, while the ring has room. -/
theorem ringBytes_write_next {m : Memory} {cap first n : Nat} (d : Byte) (hn : n < cap) :
    ringBytes (Memory.write m ((first + n) % cap) d) cap first n = ringBytes m cap first n :=
  List.map_congr_left fun _ hk => Memory.read_write_other (ring_slot_ne (List.mem_range.mp hk) hn)

/-! ### A push and a pop on the bytes held -/

theorem State.contents_congr (hm : t.storage = s.storage) (hw : t.wr = s.wr) (hr : t.rd = s.rd) (hc : t.cap = s.cap) :
    t.contents = s.contents := by
  rw [State.contents_eq_ringBytes, State.contents_eq_ringBytes, hm, hr, hc, State.occ_congr hw hr hc]

theorem State.popByte_inv (h : s.Inv) : s.popByte.Inv := ⟨⟨h.1.1, Cursor.adv_lt h.1.2⟩, h.2⟩

theorem State.pushByte_occ (h : s.CursorsInRange) (d : Byte) : (s.pushByte d).occ = (s.occ + 1) % (2 * s.cap) :=
  (State.occ_of_cursors (s := s) (t := s.pushByte d) rfl h.1 h.2).1 rfl rfl

theorem State.popByte_occ (h : s.CursorsInRange) (hocc : s.occ ≠ 0) : s.popByte.occ + 1 = s.occ := by
  have hlt : s.occ < 2 * s.cap := State.occ_lt
  have hpop : s.popByte.occ = (s.occ + (2 * s.cap - 1)) % (2 * s.cap) :=
    (State.occ_of_cursors (s := s) (t := s.popByte) rfl h.1 h.2).2.1 rfl rfl
  rw [hpop, show s.occ + (2 * s.cap - 1) = s.occ - 1 + 2 * s.cap by omega, Nat.add_mod_right,
    Nat.mod_eq_of_lt (by omega)]
  omega

/-- Below capacity a push puts its byte after the bytes held. -/
theorem State.pushByte_contents (h : s.Inv) (hroom : s.occ < s.cap) (d : Byte) :
    (s.pushByte d).contents = s.contents ++ [d] := by
  obtain ⟨hcursors, hwf⟩ := h
  have hocc : (s.pushByte d).occ = s.occ + 1 :=
    (State.pushByte_occ hcursors d).trans (Nat.mod_eq_of_lt (by omega))
  have hslot : s.wr.idx = (s.rd.idx + s.occ) % s.cap := (State.rd_add_occ_mod hcursors.1 hcursors.2).symm
  rw [State.contents_eq_ringBytes, hocc, State.pushByte_storage, State.pushByte_cap, State.pushByte_rd,
    ringBytes_succ_last, ← hslot, Memory.read_write_same hwf, hslot, ringBytes_write_next d hroom]
  rfl

/-- A pop takes the first of the bytes held. -/
theorem State.contents_eq_cons_popByte (h : s.CursorsInRange) (hocc : s.occ ≠ 0) :
    s.contents = s.popByte.popData :: s.popByte.contents := by
  rw [State.contents_eq_ringBytes, ← State.popByte_occ h hocc, ringBytes_succ_first, Nat.mod_eq_of_lt h.2,
    ← Cursor.adv_idx h.2]
  rfl

/-- A pop and then a push: the pop makes the room (R65). -/
theorem State.contents_append_popByte_pushByte (h : s.Inv) (hle : s.occ ≤ s.cap) (hocc : s.occ ≠ 0) (d : Byte) :
    s.contents ++ [d] = s.popByte.popData :: (s.popByte.pushByte d).contents := by
  have hroom : s.popByte.occ < s.popByte.cap := (State.popByte_occ h.1 hocc).trans_le hle
  rw [State.pushByte_contents (State.popByte_inv h) hroom, State.contents_eq_cons_popByte h.1 hocc, List.cons_append]

/-! ### A command on the bytes held -/

theorem State.occ_of_start (hw : t.wr = Cursor.start) (hr : t.rd = Cursor.start) : t.occ = 0 := by
  simp [State.occ, State.wrExt, State.rdExt, Cursor.ext, Cursor.start, hw, hr]

/-- The byte a pop of the command put on `pop_data`, as the list of a run's pops has it. -/
def poppedBytes (i : Instr) (t : State) : List Byte := if includesPop i then [t.popData] else []

theorem pushedBytes_length_le_one (i : Instr) : (pushedBytes i).length ≤ 1 := by
  cases i <;> simp [pushedBytes]

theorem afterCommand_push_contents (h : s.Inv) (hroom : s.occ < s.cap) (d : Byte) :
    (afterCommand (.push d) s).contents = s.contents ++ [d] :=
  State.pushByte_contents (s := s.record .push s.overflows) h hroom d

/-- The peek of a PEEKPUSH takes no part in the queue (R68). -/
theorem afterCommand_peekpush_contents (a : Nat) (d : Byte) (s : State) :
    (afterCommand (.peekpush a d) s).contents = (afterCommand (.push d) s).contents :=
  State.contents_congr (afterCommand_storage (.peekpush a d) s) (afterCommand_wr (.peekpush a d) s)
    (afterCommand_rd (.peekpush a d) s) (afterCommand_cap (.peekpush a d) s)

theorem afterCommand_peek_contents (a : Nat) (s : State) : (afterCommand (.peek a) s).contents = s.contents :=
  State.contents_congr (afterCommand_storage (.peek a) s) (afterCommand_wr (.peek a) s) (afterCommand_rd (.peek a) s)
    (afterCommand_cap (.peek a) s)

/-- The FIFO law of one edge: a command that pops a held byte and pushes into room takes the first of the bytes held and
puts its own after the last (R60). -/
theorem contents_append_pushedBytes (h : s.Inv) (hle : s.occ ≤ s.cap) (hr : restarts i = false)
    (hpop : includesPop i = true → s.occ ≠ 0)
    (hpush : pushedBytes i ≠ [] → includesPop i = false → s.occ ≠ s.cap) :
    s.contents ++ pushedBytes i = poppedBytes i (afterCommand i s) ++ (afterCommand i s).contents := by
  cases i with
  | reset | clear => cases hr
  | nop => exact List.append_nil _
  | peek a => exact (List.append_nil _).trans (afterCommand_peek_contents a s).symm
  | push d =>
    have hroom : s.occ < s.cap := Nat.lt_of_le_of_ne hle (hpush (List.cons_ne_nil _ _) rfl)
    exact (afterCommand_push_contents h hroom d).symm
  | peekpush a d =>
    have hroom : s.occ < s.cap := Nat.lt_of_le_of_ne hle (hpush (List.cons_ne_nil _ _) rfl)
    exact ((afterCommand_peekpush_contents a d s).trans (afterCommand_push_contents h hroom d)).symm
  | pop =>
    exact (List.append_nil _).trans (State.contents_eq_cons_popByte (s := s.record .pop s.underflows) h.1 (hpop rfl))
  | pushpop d =>
    exact State.contents_append_popByte_pushByte (s := s.record .pushpop s.underflows) h hle (hpop rfl) d

/-- The same law counted: pushes and pops move the occupancy (R60). -/
theorem occ_add_pushedBytes (h : s.Inv) (hle : s.occ ≤ s.cap) (hr : restarts i = false)
    (hpop : includesPop i = true → s.occ ≠ 0)
    (hpush : pushedBytes i ≠ [] → includesPop i = false → s.occ ≠ s.cap) :
    s.occ + (pushedBytes i).length = (includesPop i).toNat + (afterCommand i s).occ := by
  have hlength := congrArg List.length (contents_append_pushedBytes h hle hr hpop hpush)
  rw [List.length_append, List.length_append, State.contents_length, State.contents_length] at hlength
  rw [hlength]
  cases hq : includesPop i <;> simp [poppedBytes, hq]

/-- A command that records nothing pops a held byte and pushes into room. -/
theorem occ_of_clean (h : s.CursorsInRange) (hclean : (afterCommand i s).violations = s.violations) :
    (includesPop i = true → s.occ ≠ 0) ∧ (pushedBytes i ≠ [] → includesPop i = false → s.occ ≠ s.cap) := by
  obtain ⟨-, hconsumer, hproducer, -⟩ := afterCommand_violations_eq_iff.mp hclean
  refine ⟨fun hpop hzero => hconsumer hpop ((State.noByte_iff_occ h.1 h.2).mpr hzero), fun hpush hpop hcap => ?_⟩
  have hfull : s.full = true := (State.full_iff_occ h.1 h.2).mpr hcap
  exact ne_true_of_eq_false (hproducer hpush hpop) hfull

theorem afterCommand_occ_of_restarts (hr : restarts i = true) (s : State) : (afterCommand i s).occ = 0 :=
  State.occ_of_start (afterCommand_cursors_of_restarts hr s).1 (afterCommand_cursors_of_restarts hr s).2

/-- While nothing is recorded the block never holds more than `CAP` bytes. -/
theorem afterCommand_occ_le_cap (h : s.Inv) (hle : s.occ ≤ s.cap)
    (hclean : (afterCommand i s).violations = s.violations) : (afterCommand i s).occ ≤ (afterCommand i s).cap := by
  obtain ⟨hpop, hpush⟩ := occ_of_clean h.1 hclean
  rw [afterCommand_cap]
  cases hr : restarts i with
  | true => exact (afterCommand_occ_of_restarts hr s).trans_le (Nat.zero_le _)
  | false =>
    have hcount := occ_add_pushedBytes h hle hr hpop hpush
    have hone := pushedBytes_length_le_one i
    cases hq : includesPop i with
    | true =>
      rw [hq, Bool.toNat_true] at hcount
      omega
    | false =>
      rw [hq, Bool.toNat_false] at hcount
      by_cases hbytes : pushedBytes i = []
      · rw [hbytes, List.length_nil] at hcount
        omega
      · have := hpush hbytes hq
        omega

/-- What an edge that records nothing does to the queue, and what its pop returns (R60). -/
theorem afterCommand_contents (h : s.Inv) (hle : s.occ ≤ s.cap)
    (hclean : (afterCommand i s).violations = s.violations) :
    (afterCommand i s).contents = queueAfter i s.contents ∧
    (includesPop i = true → s.contents.head? = some (afterCommand i s).popData) := by
  obtain ⟨hpop, hpush⟩ := occ_of_clean h.1 hclean
  unfold queueAfter
  cases hr : restarts i with
  | true =>
    refine ⟨List.eq_nil_of_length_eq_zero ?_, fun hq => ?_⟩
    · rw [State.contents_length, afterCommand_occ_of_restarts hr]
    · cases i <;> simp [restarts, includesPop] at hr hq
  | false =>
    have hlaw := contents_append_pushedBytes h hle hr hpop hpush
    cases hq : includesPop i with
    | false => simpa [poppedBytes, hq] using hlaw.symm
    | true =>
      have hheld : 0 < s.contents.length := by rw [State.contents_length]; exact Nat.pos_of_ne_zero (hpop hq)
      obtain ⟨oldest, newer, hcontents⟩ := List.exists_cons_of_length_pos hheld
      rw [hcontents, poppedBytes, if_pos hq, List.cons_append, List.singleton_append, List.cons.injEq] at hlaw
      obtain ⟨holdest, hnewer⟩ := hlaw
      simp [hcontents, holdest, hnewer]

/-! ### Runs -/

/-- A run of more than no edges is one edge and the rest of the run. -/
theorem queueRun_succ {k : Nat} {r : Trace} (hrun : queueRun (k + 1) s = some r) :
    ∃ i rest r', restarts i = false ∧ queueRun k (afterCommand i (s.atEdge rest)) = some r' ∧
      r = ⟨r'.final, pushedBytes i ++ r'.pushed, poppedBytes i (afterCommand i (s.atEdge rest)) ++ r'.popped⟩ := by
  unfold queueRun at hrun
  split at hrun
  next => cases hrun
  next i u hfetch =>
    obtain ⟨rest, rfl⟩ := State.fetch_eq_atEdge hfetch
    split at hrun
    next => cases hrun
    next hr =>
      split at hrun
      next t hexec =>
        obtain ⟨-, rfl⟩ := (exec_next i).mp hexec
        split at hrun
        next r' hr' =>
          cases hrun
          exact ⟨i, rest, r', Bool.eq_false_iff.mpr hr, hr', rfl⟩
        next => cases hrun
      next => cases hrun
      next => cases hrun

theorem afterCommand_violations_isPrefix (i : Instr) (s : State) : s.violations <+: (afterCommand i s).violations := by
  obtain ⟨added, hadded, -⟩ := afterCommand_log i s
  exact ⟨added, hadded.symm⟩

/-- A run only appends to the log (R75). -/
theorem queueRun_violations_isPrefix {k : Nat} {r : Trace} (hrun : queueRun k s = some r) :
    s.violations <+: r.final.violations := by
  induction k generalizing s r with
  | zero =>
    cases hrun
    exact ⟨[], List.append_nil _⟩
  | succ k ih =>
    obtain ⟨i, rest, r', -, hrest, rfl⟩ := queueRun_succ hrun
    exact (afterCommand_violations_isPrefix i (s.atEdge rest)).trans (ih (r := r') hrest)

/-- The induction over the edges of a run that records nothing: the law of one edge, made over them all (R60). -/
theorem queueRun_fifo {k : Nat} {r : Trace} (h : s.Inv) (hle : s.occ ≤ s.cap) (hrun : queueRun k s = some r)
    (hclean : r.final.violations = s.violations) :
    s.contents ++ r.pushed = r.popped ++ r.final.contents ∧ r.final.occ ≤ r.final.cap := by
  induction k generalizing s r with
  | zero =>
    cases hrun
    exact ⟨List.append_nil _, hle⟩
  | succ k ih =>
    obtain ⟨i, rest, r', hr, hrest, rfl⟩ := queueRun_succ hrun
    have hedge : (afterCommand i (s.atEdge rest)).violations = (s.atEdge rest).violations := by
      refine ((afterCommand_violations_isPrefix i (s.atEdge rest)).eq_of_length_le ?_).symm
      exact hclean ▸ (queueRun_violations_isPrefix hrest).length_le
    obtain ⟨hpop, hpush⟩ := occ_of_clean (s := s.atEdge rest) h.1 hedge
    have hone := contents_append_pushedBytes (s := s.atEdge rest) h hle hr hpop hpush
    obtain ⟨hlaw, hcap⟩ := ih (r := r') (afterCommand_inv (s := s.atEdge rest) h)
      (afterCommand_occ_le_cap (s := s.atEdge rest) h hle hedge) hrest (hclean.trans hedge.symm)
    refine ⟨?_, hcap⟩
    calc s.contents ++ (pushedBytes i ++ r'.pushed)
      _ = s.contents ++ pushedBytes i ++ r'.pushed := (List.append_assoc _ _ _).symm
      _ = poppedBytes i (afterCommand i (s.atEdge rest)) ++ ((afterCommand i (s.atEdge rest)).contents ++ r'.pushed) := by
        rw [← List.append_assoc, ← hone]
        rfl
      _ = poppedBytes i (afterCommand i (s.atEdge rest)) ++ r'.popped ++ r'.final.contents := by
        rw [hlaw, List.append_assoc]

end Machine

open Machine

/-- Settles O46: with the cursors in range every command completes, and what it raises is a duty not kept. -/
theorem dutiesDecideTheLog : Obligations.DutiesDecideTheLog :=
  fun i _ h => ⟨_, exec_of_inRange i h, afterCommand_violations_eq_iff⟩

/-- Settles O54: an edge that records nothing keeps the duties, so its pop finds a byte and its push finds room. -/
theorem blockRefinesAQueue : Obligations.BlockRefinesAQueue := by
  intro i s t h hle hexec hclean
  obtain ⟨-, rfl⟩ := (exec_next i).mp hexec
  obtain ⟨hcontents, hhead⟩ := afterCommand_contents h hle hclean
  exact ⟨hcontents, State.contents_length _, afterCommand_occ_le_cap h hle hclean, hhead⟩

/-- Settles O55: the FIFO law is an induction over the edges of the run, and its lengths are the count. -/
theorem fifoOrder : Obligations.FifoOrder := by
  intro k s r h hle hrun hclean
  obtain ⟨hlaw, hcap⟩ := queueRun_fifo h hle hrun hclean
  have hlength := congrArg List.length hlaw
  simp only [List.length_append, State.contents_length] at hlength
  exact ⟨hlaw, hcap, State.contents_length _, by omega⟩

end Sys2Proof

/-! ## What a command leaves unchanged (R11, R19, R33, R72)

The registers a command does not write, the slots it does not store to, and that the model's bookkeeping reaches no
hardware. -/

namespace Sys2Proof

namespace Machine

variable {s t u : State} {i : Instr} {a : Nat} {d : Byte}

/-! ### The array -/

theorem Memory.read_of_not_listed {m : Memory} (h : ∀ c ∈ m, a ≠ c.1) : Memory.read m a = Memory.fill := by
  induction m with
  | nil => rfl
  | cons c m ih =>
    rw [Memory.read, if_neg (h c List.mem_cons_self)]
    exact ih fun e he => h e (List.mem_cons_of_mem c he)

/-- A canonical array lists slots of the array alone. -/
theorem Memory.read_of_cap_le {cap : Nat} {m : Memory} (h : Memory.wf cap m) (ha : cap ≤ a) :
    Memory.read m a = Memory.fill :=
  Memory.read_of_not_listed fun c hc => (Nat.lt_of_lt_of_le (h.2 c hc).1 ha).ne'

/-! ### The parts of a command -/

theorem ne_reset_of_restarts (hr : restarts i = false) : i ≠ .reset := by
  rintro rfl
  cases hr

theorem pushedBytes_cases (i : Instr) : pushedBytes i = [] ∨ ∃ d, pushedBytes i = [d] := by
  cases i <;> simp [pushedBytes]

/-! ### The registers a command leaves -/

theorem afterCommand_wr_of_no_push (hr : restarts i = false) (hpush : pushedBytes i = []) :
    (afterCommand i s).wr = s.wr := by
  rw [afterCommand_wr, hr, if_pos hpush]
  rfl

theorem afterCommand_rd_of_no_pop (hr : restarts i = false) (hpop : includesPop i = false) :
    (afterCommand i s).rd = s.rd := by
  rw [afterCommand_rd, hr, hpop]
  rfl

theorem afterCommand_popData_of_no_pop (hne : i ≠ .reset) (hpop : includesPop i = false) :
    (afterCommand i s).popData = s.popData := by
  rw [afterCommand_popData, if_neg hne, hpop]
  rfl

theorem afterCommand_peekData_of_no_peek (hne : i ≠ .reset) (hpeek : peekIndex? i = none) :
    (afterCommand i s).peekData = s.peekData := by
  rw [afterCommand_peekData, if_neg hne, hpeek]

theorem afterCommand_draws_of_no_peek (hpeek : peekIndex? i = none) : (afterCommand i s).draws = s.draws := by
  rw [afterCommand_draws, hpeek]

theorem afterCommand_resetSeen_of_ne (hne : i ≠ .reset) : (afterCommand i s).resetSeen = s.resetSeen := by
  rw [afterCommand_resetSeen, if_neg hne]

/-! ### Bookkeeping reaches no hardware -/

theorem State.outputs_congr (h : s.hw = u.hw) : s.outputs = u.outputs := by
  have hempty := State.empty_congr (congrArg Hardware.wr h) (congrArg Hardware.rd h)
  have hfull := State.full_congr (congrArg Hardware.wr h) (congrArg Hardware.rd h)
  have hpop : s.popData = u.popData := congrArg Hardware.popData h
  have hpeek : s.peekData = u.peekData := congrArg Hardware.peekData h
  simp only [State.outputs, hempty, hfull, hpop, hpeek]

theorem State.cap_congr (h : s.hw = u.hw) : s.cap = u.cap := congrArg (fun hw => hw.config.cap) h

theorem cursorSlots_congr (i : Instr) (h : s.hw = u.hw) : cursorSlots i s = cursorSlots i u := by
  have hwr : s.wr = u.wr := congrArg Hardware.wr h
  have hrd : s.rd = u.rd := congrArg Hardware.rd h
  cases i <;> simp only [cursorSlots, hwr, hrd]

/-- The hardware and the draw count after a command are functions of the same before it (R72). -/
theorem afterCommand_congr (i : Instr) (h : s.hw = u.hw) (hdraws : s.draws = u.draws) :
    (afterCommand i s).hw = (afterCommand i u).hw ∧ (afterCommand i s).draws = (afterCommand i u).draws := by
  have hcap := State.cap_congr h
  simp only [State.hw, Hardware.mk.injEq] at h ⊢
  obtain ⟨hconfig, hstorage, hwr, hrd, hpop, hpeek⟩ := h
  simp only [afterCommand_config, afterCommand_storage, afterCommand_wr, afterCommand_rd, afterCommand_popData,
    afterCommand_peekData, afterCommand_draws, hcap, hconfig, hstorage, hwr, hrd, hpop, hpeek, hdraws, and_self]

theorem exec_congr (h : s.hw = u.hw) (hexec : exec i s = .next t) : exec i u = .next (afterCommand i u) := by
  obtain ⟨hslots, -⟩ := (exec_next i).mp hexec
  rw [cursorSlots_congr i h, State.cap_congr h] at hslots
  exact (exec_next i).mpr ⟨hslots, rfl⟩

/-! ### The ports of R33 -/

/-- A command with a pop that completes found the read cursor at a slot. -/
theorem rd_lt_of_exec (hpop : includesPop i = true) (hexec : exec i s = .next t) : s.rd.idx < s.cap := by
  obtain ⟨hslots, -⟩ := (exec_next i).mp hexec
  refine hslots s.rd.idx ?_
  cases i with
  | pop | pushpop d => exact List.mem_cons_self
  | reset | clear | nop | push d | peek a | peekpush a d => cases hpop

theorem memoryAfter_ports (i : Instr) (s : State) : (s.ports i).memoryAfter s.storage = (afterCommand i s).storage := by
  rw [afterCommand_storage]
  cases i <;> rfl

/-- `pop_data` captures the byte at the read cursor, for the commands with a pop (R30, R33). -/
theorem captured_popData_iff {b : Byte} : (s.ports i).captured s.cap s.storage = some (.popData, b) ↔
    includesPop i = true ∧ s.rd.idx < s.cap ∧ Memory.read s.storage s.rd.idx = b := by
  cases i <;> simp [State.ports, ArrayPorts.captured, includesPop]

/-- `peek_data` captures the byte of the slot a peek names (R30, R33, R67). -/
theorem captured_peekData_iff {b : Byte} : (s.ports i).captured s.cap s.storage = some (.peekData, b) ↔
    ∃ a, peekIndex? i = some a ∧ a < s.cap ∧ Memory.read s.storage a = b := by
  cases i <;> simp [State.ports, ArrayPorts.captured, peekIndex?]

end Machine

open Machine

/-- Settles O15: the flags compare the cursors, and the other outputs are registers. -/
theorem outputsDependOnHardwareAlone : Obligations.OutputsDependOnHardwareAlone :=
  fun _ _ => State.outputs_congr

/-- Settles O44: a command reaches the same slots of equal hardware, and each field after it is a function of the hardware
before. -/
theorem violationsChangeNoHardware : Obligations.ViolationsChangeNoHardware := by
  intro i s u t hhw hdraws hexec
  obtain ⟨-, rfl⟩ := (exec_next i).mp hexec
  obtain ⟨hhw', hdraws'⟩ := afterCommand_congr i hhw hdraws
  exact ⟨_, exec_congr hhw hexec, hhw'.symm, State.outputs_congr hhw'.symm, hdraws'.symm⟩

/-- Settles O22: the power-up bit is no hardware, and before the first RESET it alone decides what is recorded. -/
theorem preResetCommandsActAndRecord : Obligations.PreResetCommandsActAndRecord := by
  intro i s t u hreset hne ht hu
  obtain ⟨-, rfl⟩ := (exec_next i).mp ht
  obtain ⟨-, rfl⟩ := (exec_next i).mp hu
  refine ⟨(afterCommand_resetSeen_of_ne hne).trans hreset, ?_,
    (afterCommand_congr (s := s) (u := { s with resetSeen := true }) i rfl rfl).1⟩
  rw [afterCommand_violations, if_neg hne, State.raised_of_no_reset hreset]

/-- Settles O36: none of the three commands restarts the queue or pushes. -/
theorem registerCommandsFrame : Obligations.RegisterCommandsFrame := by
  intro i s t hi hexec
  obtain ⟨-, rfl⟩ := (exec_next i).mp hexec
  obtain ⟨hr, hpush, hpop⟩ : restarts i = false ∧ pushedBytes i = [] ∧ (i ≠ .pop → includesPop i = false) := by
    rcases hi with rfl | rfl | ⟨a, rfl⟩ <;> simp [restarts, pushedBytes, includesPop]
  have hne := ne_reset_of_restarts hr
  have hwr : (afterCommand i s).wr = s.wr := afterCommand_wr_of_no_push hr hpush
  refine ⟨fun x => read_afterCommand_of_no_push_to hr (.inl hpush), afterCommand_config i s, hwr,
    afterCommand_resetSeen_of_ne hne, afterCommand_edge i s, afterCommand_inputs i s, fun hnopop => ?_,
    fun hpeek => ⟨afterCommand_peekData_of_no_peek hne hpeek, afterCommand_draws_of_no_peek hpeek⟩,
    afterCommand_violations_isPrefix i s⟩
  have hrd : (afterCommand i s).rd = s.rd := afterCommand_rd_of_no_pop hr (hpop hnopop)
  exact ⟨hrd, afterCommand_popData_of_no_pop hne (hpop hnopop), State.empty_congr hwr hrd, State.full_congr hwr hrd⟩

/-- Settles O37: each of the three commands pushes its byte and does not restart the queue. -/
theorem storingCommandsFrame : Obligations.StoringCommandsFrame := by
  intro i d s t hi hexec
  obtain ⟨-, rfl⟩ := (exec_next i).mp hexec
  obtain ⟨hr, hpush⟩ : restarts i = false ∧ pushedBytes i = [d] := by
    rcases hi with rfl | rfl | ⟨a, rfl⟩ <;> exact ⟨rfl, rfl⟩
  have hne := ne_reset_of_restarts hr
  refine ⟨?slots, fun h => read_afterCommand_pushed h hpush hr, afterCommand_config i s,
    afterCommand_resetSeen_of_ne hne, afterCommand_edge i s, afterCommand_inputs i s,
    fun hpop => ⟨afterCommand_rd_of_no_pop hr hpop, afterCommand_popData_of_no_pop hne hpop⟩,
    fun hpeek => ⟨afterCommand_peekData_of_no_peek hne hpeek, afterCommand_draws_of_no_peek hpeek⟩,
    afterCommand_violations_isPrefix i s⟩
  case slots =>
    rintro a rfl x hx
    exact read_afterCommand_of_no_push_to hr (.inr hx)

/-- Settles O38: neither command peeks, and CLEAR is no RESET. -/
theorem clearingCommandsFrame : Obligations.ClearingCommandsFrame := by
  intro i s t hi hexec
  obtain ⟨-, rfl⟩ := (exec_next i).mp hexec
  have hpeek : peekIndex? i = none := by rcases hi with rfl | rfl <;> rfl
  refine ⟨afterCommand_config i s, afterCommand_edge i s, afterCommand_inputs i s, afterCommand_draws_of_no_peek hpeek,
    afterCommand_violations_isPrefix i s, ?clear, ?reset⟩
  case clear =>
    rintro rfl
    exact ⟨rfl, rfl, rfl⟩
  case reset =>
    rintro rfl
    rfl

/-- Settles O41: a slot that differs after an edge was pushed to. -/
theorem slotsChangeOnlyByAPushToThem : Obligations.SlotsChangeOnlyByAPushToThem := by
  intro i s u t a h hfetch hstep
  obtain ⟨rest, rfl⟩ := step_eq_afterCommand hfetch hstep
  refine ⟨fun hr => read_afterCommand_of_restarts hr _ a, fun hr hchanged => ?_⟩
  obtain ⟨hpush, ha⟩ : pushedBytes i ≠ [] ∧ a = s.wr.idx := by
    by_contra hno
    exact hchanged (read_afterCommand_of_no_push_to (s := s.atEdge rest) hr (by tauto))
  obtain ⟨d, hd⟩ := (pushedBytes_cases i).resolve_left hpush
  subst ha
  rw [hd, show Memory.read _ s.wr.idx = d from read_afterCommand_pushed (s := s.atEdge rest) h hd hr]
  exact ⟨rfl, rfl⟩

/-- Settles O49: a canonical array reads as 0x00 beyond its slots, so its bytes below `CAP` determine it. -/
theorem arrayReadAfterWrite : Obligations.ArrayReadAfterWrite := by
  refine ⟨fun cap m a x v hm ha => ⟨Memory.read_write hm, Memory.wf_write hm ha⟩, fun cap m n hm hn hslots => ?_⟩
  refine Memory.ext_of_read hm hn fun a => ?_
  rcases Nat.lt_or_ge a cap with ha | ha
  · exact hslots a ha
  · rw [Memory.read_of_cap_le hm ha, Memory.read_of_cap_le hn ha]

/-- Settles O53: each register captures exactly when the command reads a slot into it. -/
theorem commandsRefineTheArrayPorts : Obligations.CommandsRefineTheArrayPorts := by
  intro i s t hexec
  have hrd (hpop : includesPop i = true) := rd_lt_of_exec hpop hexec
  obtain ⟨-, rfl⟩ := (exec_next i).mp hexec
  refine ⟨(memoryAfter_ports i s).symm, fun r b hcaptured => ?captured, fun r hfree => ?kept⟩
  case captured =>
    cases r with
    | popData =>
      obtain ⟨hpop, -, rfl⟩ := captured_popData_iff.mp hcaptured
      exact afterCommand_popData_of_pop hpop
    | peekData =>
      obtain ⟨a, hpeek, ha, rfl⟩ := captured_peekData_iff.mp hcaptured
      exact afterCommand_peekData_of_peek hpeek ha
  case kept =>
    cases r with
    | popData =>
      have hpop : includesPop i = false := Bool.eq_false_iff.mpr fun hpop =>
        hfree _ (captured_popData_iff.mpr ⟨hpop, hrd hpop, rfl⟩)
      simp only [State.outReg, afterCommand_popData, hpop, reduceCtorEq, false_and]
      rfl
    | peekData =>
      have hout (a : Nat) (hpeek : peekIndex? i = some a) : s.cap ≤ a := Nat.le_of_not_lt fun ha =>
        hfree _ (captured_peekData_iff.mpr ⟨a, hpeek, ha, rfl⟩)
      simp only [State.outReg, afterCommand_peekData, true_and]
      cases hpeek : peekIndex? i with
      | none => simp
      | some a => simp [hout a hpeek, Nat.not_lt.mpr (hout a hpeek)]

/-- Settles O35: a peek writes no register but its own, and a PEEKPUSH is in the rest the PUSH. -/
theorem peeksNeverConsultTheCursors : Obligations.PeeksNeverConsultTheCursors := by
  refine ⟨fun a s t ht => ?peek, fun a s u t v hconfig hstorage hdraws ht hv => ?sameByte,
    fun a d s t u ht hu => ?peekpush, fun a i s t u hi ht ha hu => ?zero⟩
  case peek =>
    obtain ⟨-, rfl⟩ := (exec_next _).mp ht
    have hwr : (afterCommand (.peek a) s).wr = s.wr := afterCommand_wr_of_no_push rfl rfl
    have hrd : (afterCommand (.peek a) s).rd = s.rd := afterCommand_rd_of_no_pop rfl rfl
    exact ⟨hwr, hrd, State.empty_congr hwr hrd, State.full_congr hwr hrd,
      afterCommand_popData_of_no_pop (by simp) rfl⟩
  case sameByte =>
    obtain ⟨-, rfl⟩ := (exec_next _).mp ht
    obtain ⟨-, rfl⟩ := (exec_next _).mp hv
    have hcap : s.cap = u.cap := congrArg Config.cap hconfig
    simp only [afterCommand_peek, hcap, hstorage, hdraws]
  case peekpush =>
    obtain ⟨-, rfl⟩ := (exec_next _).mp ht
    obtain ⟨-, rfl⟩ := (exec_next _).mp hu
    have hhw := afterCommand_peekpush_hw a d s
    have hwr := congrArg Hardware.wr hhw
    have hrd := congrArg Hardware.rd hhw
    exact ⟨hwr, hrd, State.empty_congr hwr hrd, State.full_congr hwr hrd, congrArg Hardware.popData hhw⟩
  case zero =>
    obtain ⟨-, rfl⟩ := (exec_next i).mp ht
    obtain ⟨-, rfl⟩ := (exec_next _).mp hu
    have hr : restarts i = true := by rcases hi with rfl | rfl <;> rfl
    rw [← afterCommand_cap i s] at ha
    rw [afterCommand_peekData_of_peek rfl ha, read_afterCommand_of_restarts hr]
    rfl

end Sys2Proof

/-! ## RESET, CLEAR, POP and PUSHPOP (R55, R56, R60 to R65)

The rows of these commands at the pins, the record of a pop, and the occupancy and the flags after a push or a pop. -/

namespace Sys2Proof

namespace Machine

variable {s t : State} {i : Instr} {d : Byte}

/-! ### The row of a command at the pins -/

/-- The edge of a sample that shows a row is the row's command, with its operands (R48). -/
theorem step_of_row {x : Sample} {rest : List Sample} {r : TableRow} (hr : r ∈ commandTable)
    (hinputs : s.inputs = x :: rest) (hx : Presents s.config x r.pattern r.mask)
    (hoperands : r.command.withOperands x = .ok i) : step s = exec i (s.atEdge rest) :=
  step_of_decode hinputs ((hx.decode_row hr).trans hoperands)

/-! ### The queue at its start -/

theorem State.flags_of_start (hw : t.wr = Cursor.start) (hr : t.rd = Cursor.start) :
    t.empty = true ∧ t.full = false := by
  simp [State.empty, State.full, hw, hr]

/-- What both commands that restart the queue leave to be read (R55, R56). -/
theorem afterCommand_of_restarts (hr : restarts i = true) (s : State) :
    (∀ a, Memory.read (afterCommand i s).storage a = 0x00) ∧ (afterCommand i s).empty = true ∧
    (afterCommand i s).full = false ∧ (afterCommand i s).occ = 0 := by
  obtain ⟨hwr, hrd⟩ := afterCommand_cursors_of_restarts hr s
  obtain ⟨hempty, hfull⟩ := State.flags_of_start hwr hrd
  exact ⟨read_afterCommand_of_restarts hr s, hempty, hfull, State.occ_of_start hwr hrd⟩

/-! ### The record of a pop -/

/-- UNDERFLOW by the flags (R63, R74), NO_RESET alone before the first RESET (R76). -/
theorem State.raised_underflows (s : State) (k : Command) : s.raised k s.underflows =
    if s.resetSeen then (if s.empty = true ∧ s.full = false then [⟨s.edge, .underflow s.rd.idx⟩] else [])
    else [⟨s.edge, .noReset k⟩] := by
  cases hreset : s.resetSeen with
  | false => exact State.raised_of_no_reset hreset k _
  | true =>
    rw [State.raised_of_reset hreset]
    cases hempty : s.empty <;> cases hfull : s.full <;> simp [State.underflows, hempty, hfull, State.popSlot]

/-! ### Occupancy and flags -/

theorem State.full_eq_of_occ (hs : s.CursorsInRange) (ht : t.CursorsInRange) (hcap : t.cap = s.cap)
    (hocc : t.occ = s.occ) : t.full = s.full := by
  rw [Bool.eq_iff_iff, (State.flags_iff_occ ht).1, (State.flags_iff_occ hs).1, hcap, hocc]

theorem State.empty_eq_of_occ (hs : s.CursorsInRange) (ht : t.CursorsInRange) (hcap : t.cap = s.cap)
    (hocc : t.occ = s.occ) : t.empty = s.empty := by
  rw [Bool.eq_iff_iff, (State.flags_iff_occ ht).2, (State.flags_iff_occ hs).2, hcap, hocc]

/-- Off the occupancies 0 and `CAP` no flag is up (R21, R22). -/
theorem State.flags_down (h : s.CursorsInRange) (hzero : s.occ ≠ 0) (hcap : s.occ ≠ s.cap) :
    s.empty = false ∧ s.full = false := by
  obtain ⟨hfull, hempty⟩ := State.flags_iff_occ h
  exact ⟨Bool.eq_false_iff.mpr fun he => (hempty.mp he).elim hzero hcap,
    Bool.eq_false_iff.mpr fun hf => hcap (hfull.mp hf)⟩

theorem State.full_eq_false (h : s.CursorsInRange) (hcap : s.occ ≠ s.cap) : s.full = false :=
  Bool.eq_false_iff.mpr fun hf => hcap ((State.flags_iff_occ h).1.mp hf)

theorem afterCommand_pop_occ (h : s.CursorsInRange) (hocc : s.occ ≠ 0) : (afterCommand .pop s).occ + 1 = s.occ :=
  State.popByte_occ (s := s.record .pop s.underflows) h hocc

/-- The other case: a pop at occupancy 0 goes round (R64). -/
theorem afterCommand_pop_occ_of_zero (h : s.CursorsInRange) (hocc : s.occ = 0) :
    (afterCommand .pop s).occ = 2 * s.cap - 1 := by
  have hcap := s.cap_pos
  have hpop : (afterCommand .pop s).occ = (s.occ + (2 * s.cap - 1)) % (2 * s.cap) := afterCommand_occ h rfl
  rw [hpop, hocc, Nat.zero_add, Nat.mod_eq_of_lt (by omega)]

/-- A push without a pop at full: once round for `CAP = 1`, else beyond `CAP` (R62). -/
theorem afterCommand_occ_of_full_push (h : s.CursorsInRange) (hfull : s.full = true) (hr : restarts i = false)
    (hpush : pushedBytes i = [d]) (hpop : includesPop i = false) :
    (afterCommand i s).occ = if s.cap = 1 then 0 else s.cap + 1 := by
  have hcap := s.cap_pos
  have hocc := afterCommand_occ h hr
  rw [hpush, hpop, (State.flags_iff_occ h).1.mp hfull] at hocc
  refine Eq.trans hocc ?_
  by_cases hone : s.cap = 1
  · simp [hone]
  · rw [if_neg hone]
    exact Nat.mod_eq_of_lt (by omega)

/-! ### The extended pointers -/

theorem afterCommand_wrExt (h : s.CursorsInRange) (hr : restarts i = false) :
    (afterCommand i s).wrExt = (s.wrExt + (pushedBytes i).length) % (2 * s.cap) := by
  unfold State.wrExt
  rw [afterCommand_cap, afterCommand_wr, hr]
  rcases pushedBytes_cases i with hpush | ⟨d, hpush⟩
  · simpa [hpush] using (Nat.mod_eq_of_lt (Cursor.ext_lt h.1)).symm
  · simpa [hpush] using Cursor.adv_ext h.1

theorem afterCommand_rdExt (h : s.CursorsInRange) (hr : restarts i = false) :
    (afterCommand i s).rdExt = (s.rdExt + (includesPop i).toNat) % (2 * s.cap) := by
  unfold State.rdExt
  rw [afterCommand_cap, afterCommand_rd, hr]
  cases hpop : includesPop i with
  | false => exact (Nat.mod_eq_of_lt (Cursor.ext_lt h.2)).symm
  | true => exact Cursor.adv_ext h.2

/-- The occupancy is the difference of the extended pointers on their ring (R17). -/
theorem State.occ_int (h : s.CursorsInRange) : (s.occ : Int) = ((s.wrExt : Int) - s.rdExt) % (2 * s.cap) := by
  have hrd : s.rdExt ≤ 2 * s.cap := (Cursor.ext_lt h.2).le
  have hturn : (s.wrExt : Int) + (2 * s.cap - s.rdExt) = s.wrExt - s.rdExt + 2 * s.cap := by omega
  unfold State.occ
  push_cast [Nat.cast_sub hrd]
  rw [hturn, Int.add_emod_right]

/-- The third law of R60: the difference moves as its two pointers do. -/
theorem afterCommand_occ_int (h : s.CursorsInRange) (hr : restarts i = false) : ((afterCommand i s).occ : Int) =
    ((s.occ : Int) + (pushedBytes i).length - (includesPop i).toNat) % (2 * s.cap) := by
  rw [State.occ_int (afterCommand_inRange h), State.occ_int h, afterCommand_wrExt h hr, afterCommand_rdExt h hr,
    afterCommand_cap]
  push_cast
  rw [← Int.sub_emod, add_sub_add_comm, add_sub_assoc, Int.emod_add_emod]

end Machine

open Machine

/-- Settles O17: RESET completes from every state, its row leaves every other pin open, and a register is written by a
reset or a read alone. -/
theorem resetRule : Obligations.ResetRule := by
  have hrow : (⟨.reset, 0b10000#5, 0b10000#5⟩ : TableRow) ∈ commandTable := by decide
  refine ⟨fun s => rfl, fun s t hexec => ?after, fun s x rest hinputs hx => step_of_row hrow hinputs hx rfl,
    fun i s t hexec hne => ?registers⟩
  case after =>
    obtain ⟨-, rfl⟩ := (exec_next .reset).mp hexec
    obtain ⟨hslots, hempty, hfull, hocc⟩ := afterCommand_of_restarts (i := .reset) rfl s
    exact ⟨hslots, hempty, hfull, hocc, rfl⟩
  case registers =>
    obtain ⟨-, rfl⟩ := (exec_next i).mp hexec
    exact ⟨afterCommand_popData_of_no_pop hne, afterCommand_peekData_of_no_peek hne⟩

/-- Settles O18: CLEAR restarts the queue and raises nothing, and its row leaves push, pop and peek open. -/
theorem clearRule : Obligations.ClearRule := by
  have hrow : (⟨.clear, 0b01000#5, 0b11000#5⟩ : TableRow) ∈ commandTable := by decide
  refine ⟨fun s => ?effect, fun s t hexec => ?after, fun s x rest hinputs hx => step_of_row hrow hinputs hx rfl⟩
  case effect =>
    rw [← State.raised_nil]
    rfl
  case after =>
    obtain ⟨-, rfl⟩ := (exec_next .clear).mp hexec
    exact afterCommand_of_restarts (i := .clear) rfl s

/-- Settles O25: each cursor takes as many steps on its ring as the command pushes or pops bytes. -/
theorem occupancyArithmetic : Obligations.OccupancyArithmetic := by
  intro i s t h hr hexec
  obtain ⟨-, rfl⟩ := (exec_next i).mp hexec
  exact ⟨afterCommand_wrExt h hr, afterCommand_rdExt h hr, afterCommand_occ_int h hr⟩

/-- Settles O42: the flags are their definitions, and the occupancy is read off the meeting of the cursors. -/
theorem flagsNameTheOccupancy : Obligations.FlagsNameTheOccupancy := by
  intro s h
  obtain ⟨hfull, hempty⟩ := State.flags_iff_occ h
  exact ⟨s.empty_iff_idx, s.full_iff_idx_lap, fun hf => hempty.mpr (.inr (hfull.mp hf)), hfull,
    State.noByte_iff_occ h.1 h.2, hempty, State.occ_lt⟩

/-- Settles O27: at full the write cursor stands at the oldest byte. -/
theorem silentOverwrite : Obligations.SilentOverwrite := by
  intro i d s t h hfull hi hexec
  obtain ⟨-, rfl⟩ := (exec_next i).mp hexec
  obtain ⟨hr, hpush, hpop⟩ : restarts i = false ∧ pushedBytes i = [d] ∧ includesPop i = false := by
    rcases hi with rfl | ⟨a, rfl⟩ <;> exact ⟨rfl, rfl, rfl⟩
  have hcap := s.cap_pos
  have hsame : s.wr.idx = s.rd.idx := (s.full_iff_idx_lap.mp hfull).1
  have hrd : (afterCommand i s).rd = s.rd := afterCommand_rd_of_no_pop hr hpop
  have hbyte : Memory.read (afterCommand i s).storage s.rd.idx = d := hsame ▸ read_afterCommand_pushed h hpush hr
  have hocc := afterCommand_occ_of_full_push h.1 hfull hr hpush hpop
  refine ⟨hsame, hrd, hbyte, hocc, fun htwo => ?flags, fun u hu => ?pop, fun k hk hkcap => ?slots, fun hreset => ?record⟩
  case flags =>
    rw [if_neg (by omega)] at hocc
    exact State.flags_down (afterCommand_inRange h.1) (by omega) (by rw [afterCommand_cap]; omega)
  case pop =>
    obtain ⟨-, rfl⟩ := (exec_next .pop).mp hu
    rw [afterCommand_popData_of_pop rfl, hrd, hbyte]
  case slots =>
    have hne := (ring_slot_ne (first := s.rd.idx) hk hkcap).symm
    rw [Nat.add_zero, Nat.mod_eq_of_lt h.1.2, ← hsame] at hne
    exact hsame ▸ read_afterCommand_of_no_push_to hr (.inr hne)
  case record =>
    rw [afterCommand_violations, if_neg (ne_reset_of_restarts hr), State.raised_of_reset hreset, ← hsame]
    simp [raisedBy, hpush, hpop, State.overflows, hfull, State.pushSlot]

/-- Settles O28: a pop advances the read cursor alone, so its flags are the occupancy's after one byte less. -/
theorem popRule : Obligations.PopRule := by
  have hrow : (⟨.pop, 0b00010#5, 0b11011#5⟩ : TableRow) ∈ commandTable := by decide
  refine ⟨fun s h => ?effect, fun s t h hexec => ?flags, fun s x rest hinputs hx => step_of_row hrow hinputs hx rfl⟩
  case effect =>
    rw [exec_of_inRange _ h, ← State.raised_underflows]
    rfl
  case flags =>
    obtain ⟨-, rfl⟩ := (exec_next .pop).mp hexec
    have hcap := s.cap_pos
    have hcap' := afterCommand_cap .pop s
    have ht : (afterCommand .pop s).CursorsInRange := afterCommand_inRange h
    have hocc := afterCommand_pop_occ h
    refine ⟨State.empty_iff_idx _, fun hone => ?_, fun hfull => ⟨?_, fun htwo => ?_⟩, fun hpos hle => ?_,
      fun i u hu hpop hne => ?_⟩
    · have hless := hocc (by omega)
      exact (State.flags_iff_occ ht).2.mpr (.inl (by omega))
    · have hless := hocc (by omega)
      exact State.full_eq_false ht (by omega)
    · have hless := hocc (by omega)
      exact (State.flags_down ht (by omega) (by omega)).1
    · have hless := hocc (by omega)
      exact State.full_eq_false ht (by omega)
    · obtain ⟨-, rfl⟩ := (exec_next i).mp hu
      rw [afterCommand_popData_of_no_pop hne hpop, afterCommand_popData_of_pop rfl]

/-- Settles O29: at occupancy 0 the flags show it, and the pop goes round the ring of `2*CAP` places. -/
theorem popAtOccupancyZero : Obligations.PopAtOccupancyZero := by
  intro s h hzero
  have hcap := s.cap_pos
  have hocc := afterCommand_pop_occ_of_zero h hzero
  refine ⟨_, exec_of_inRange .pop h, rfl, rfl, rfl, hocc, fun htwo => ?flags, fun hreset => ?record⟩
  case flags =>
    exact State.flags_down (afterCommand_inRange h) (by omega) (by rw [afterCommand_cap]; omega)
  case record =>
    have hcause := (State.noByte_iff_occ h.1 h.2).mpr hzero
    have hraised : s.raised .pop s.underflows = [⟨s.edge, .underflow s.rd.idx⟩] := by
      rw [State.raised_underflows, if_pos hreset, if_pos hcause]
    exact congrArg (s.violations ++ ·) hraised

/-- Settles O30: both cursors advance, so the occupancy stays, and the pop reads a slot the push leaves when the cursors
differ. -/
theorem pushpopRule : Obligations.PushpopRule := by
  have hrow : (⟨.pushpop, 0b00011#5, 0b11011#5⟩ : TableRow) ∈ commandTable := by decide
  refine ⟨fun d s h => ?effect, fun d s t h hexec => ?flags, fun s x rest d hinputs hx hd =>
    step_of_row hrow hinputs hx (Command.withOperands_pushpop hd)⟩
  case effect =>
    rw [exec_of_inRange _ h, ← State.raised_underflows]
    rfl
  case flags =>
    obtain ⟨-, rfl⟩ := (exec_next (.pushpop d)).mp hexec
    have hcap := afterCommand_cap (.pushpop d) s
    have hocc : (afterCommand (.pushpop d) s).occ = s.occ := afterCommand_occ h rfl
    have ht : (afterCommand (.pushpop d) s).CursorsInRange := afterCommand_inRange h
    refine ⟨hocc, State.empty_eq_of_occ h ht hcap hocc, State.full_eq_of_occ h ht hcap hocc, fun u v hu hv => ?_,
      fun hne u v hu hv => ?_⟩
    · obtain ⟨-, rfl⟩ := (exec_next _).mp hu
      obtain ⟨-, rfl⟩ := (exec_next _).mp hv
      refine ⟨rfl, fun hreset => ?_⟩
      have hraised : s.raised .pushpop s.underflows = s.raised .pop s.underflows := by
        rw [State.raised_of_reset hreset, State.raised_of_reset hreset]
      exact congrArg (s.violations ++ ·) hraised
    · obtain ⟨-, rfl⟩ := (exec_next _).mp hu
      obtain ⟨-, rfl⟩ := (exec_next _).mp hv
      have hread : Memory.read (Memory.write s.storage s.wr.idx d) s.rd.idx = Memory.read s.storage s.rd.idx :=
        Memory.read_write_other hne.symm
      simp [afterCommand, State.hw, hread]

/-- Settles O48: a register takes its byte from the array before the edge, and a byte pushed at occupancy 0 is then the only
one held. -/
theorem pushedByteIsReadableNextEdge : Obligations.PushedByteIsReadableNextEdge := by
  refine ⟨fun a d e s t u => ⟨fun ht hu => ?pop, fun ht hu => ?peek⟩, fun d s t u h hzero ht hu => ?next⟩
  case pop =>
    obtain ⟨-, rfl⟩ := (exec_next _).mp ht
    obtain ⟨-, rfl⟩ := (exec_next _).mp hu
    rw [afterCommand_popData_of_pop rfl, afterCommand_popData_of_pop rfl]
  case peek =>
    obtain ⟨-, rfl⟩ := (exec_next _).mp ht
    obtain ⟨-, rfl⟩ := (exec_next _).mp hu
    exact (afterCommand_peekData (.peekpush a d) s).trans (afterCommand_peekData (.peekpush a e) s).symm
  case next =>
    obtain ⟨-, rfl⟩ := (exec_next _).mp ht
    obtain ⟨-, rfl⟩ := (exec_next _).mp hu
    have hnone : s.contents = [] := List.eq_nil_of_length_eq_zero (s.contents_length.trans hzero)
    have hheld := afterCommand_push_contents h (hzero ▸ s.cap_pos) d
    have hone : (afterCommand (.push d) s).occ ≠ 0 := by
      rw [← State.contents_length, hheld, List.length_append]
      exact Nat.succ_ne_zero _
    rw [hnone, List.nil_append, State.contents_eq_cons_popByte (afterCommand_inRange h.1) hone] at hheld
    exact (List.cons.inj hheld).1

end Sys2Proof

/-! ## Literals of a listing (R53)

The ranges the assembler holds a byte and an index to. -/

namespace Sys2Proof

namespace Machine

variable {n : Nat}

theorem byteLiteral_of_lt (h : n < 256) : byteLiteral n = .ok (BitVec.ofNat 8 n) := if_pos h

theorem byteLiteral_of_le (h : 256 ≤ n) : byteLiteral n = .error .outOfRange := if_neg (Nat.not_lt.mpr h)

theorem Instr.checked_of_not_wellFormed {c : Config} {i : Instr} (h : i.wellFormed c = false) :
    Instr.checked c i = .error .outOfRange := if_neg (ne_true_of_eq_false h)

theorem indexFits_of_le {c : Config} {a : Nat} (h : 2 ^ c.width ≤ a) : indexFits c a = false :=
  decide_eq_false (Nat.not_lt.mpr h)

end Machine

open Machine

/-- Settles O57: a byte keeps its value below 256, and the index of a command is checked against the width of the port. -/
theorem listingLiteralsAreRangeChecked : Obligations.ListingLiteralsAreRangeChecked :=
  ⟨fun _ => byteLiteral_of_le, fun _ h => ⟨_, byteLiteral_of_lt h, Nat.mod_eq_of_lt h⟩,
    fun _ _ _ h => ⟨Instr.checked_of_not_wellFormed (indexFits_of_le h),
      Instr.checked_of_not_wellFormed (indexFits_of_le h)⟩,
    fun _ _ => Instr.checked_of_wellFormed⟩

end Sys2Proof
